-- ==== Sys2Proof/Word.lean ====
section
/-! DEFINITION. The widths of the machine: bytes, words and register numbers (00_scope.md R8, 10_state.md R20 and R21). -/

namespace Sys2Proof

/-- One byte of a memory (20_memory.md R40). -/
abbrev Byte := BitVec 8

/-- A register value, an address, a data word or an instruction word: `XLEN` = 32 bits (00_scope.md R5, R8; `Config.xlen`). -/
abbrev Word := BitVec 32

/-- A register number, 0 to 31 (`NREGS` = 32, 10_state.md R20; `Config.nregs`): every value of a 5-bit field names a register. -/
abbrev Reg := Fin 32

end Sys2Proof
end

