-- ==== Sys2Proof/Config.lean ====
section
/-! DEFINITION. The implementation parameters of 00_scope.md R5, as one record of plain data, and the free value of an unwritten
byte of data memory. -/

namespace Sys2Proof

/-- `XLEN`: the widths of a general register, of `PC`, of a data word and of an address that the spec allows. It allows one
(10_state.md R21; 92_eei_decisions.md D1 rejects leaving it open), and `Word` is that wide (log 1). -/
inductive Xlen where
  | bits32
deriving DecidableEq, Repr

/-- `NREGS`: the numbers of general registers that the spec allows. It allows one (10_state.md R20: "32 elements from 0 to 31"), and `Reg`
has that many values (log 1). -/
inductive Nregs where
  | regs32
deriving DecidableEq, Repr

/-- `XLEN` as a number of bits. -/
def Xlen.bits : Xlen → Nat
  | .bits32 => 32

/-- `NREGS` as a number. -/
def Nregs.count : Nregs → Nat
  | .regs32 => 32

/-- `DMEM_ADDRESSING` (20_memory.md R40): is `MEM[]` an array of bytes or of words? -/
inductive DmemAddressing where
  | byte
  | word
deriving DecidableEq, Repr

/-- `DMEM_MISALIGNED` (20_memory.md R47): what an effective address that is no multiple of 4 does. -/
inductive DmemMisaligned where
  | refuse
  | ignoreLowBits
  | split
deriving DecidableEq, Repr

/-- `BYTE_ORDER` (20_memory.md R46). -/
inductive ByteOrder where
  | big
  | little
deriving DecidableEq, Repr

/-- The parameters of 00_scope.md R5, under the spec's names. -/
structure Config where
  /-- `XLEN` (10_state.md R21). -/
  xlen : Xlen
  /-- `NREGS` (10_state.md R20). -/
  nregs : Nregs
  /-- `R0_HARDWIRED` (10_state.md R22). -/
  r0Hardwired : Bool
  /-- `PC_STEP` (10_state.md R25; 92_eei_decisions.md D3). -/
  pcStep : Word
  /-- `TARGET_BASE_OFFSET` (43_control_transfer.md R155). -/
  targetBaseOffset : Word
  /-- `LINK_OFFSET` (43_control_transfer.md R155). -/
  linkOffset : Word
  /-- `BRANCH_DELAY_SLOTS` (43_control_transfer.md R157). -/
  branchDelaySlots : Nat
  /-- `DMEM_ADDRESSING` (20_memory.md R40). -/
  dmemAddressing : DmemAddressing
  /-- `DMEM_MISALIGNED` (20_memory.md R47). -/
  dmemMisaligned : DmemMisaligned
  /-- `BYTE_ORDER` (20_memory.md R46). -/
  byteOrder : ByteOrder
  /-- `IMEM_BASE` (20_memory.md R41). -/
  imemBase : Nat
  /-- `IMEM_SIZE`, OPEN (20_memory.md R43). -/
  imemSize : Nat
  /-- `DMEM_BASE` (20_memory.md R40). -/
  dmemBase : Nat
  /-- `DMEM_SIZE`, OPEN (20_memory.md R48). -/
  dmemSize : Nat
  /-- `RESET_PC` (70_reset_and_hazards.md R200). -/
  resetPc : Word
  /-- `FUNC_MATCH_BITS` (30_encoding.md R72). -/
  funcMatchBits : Nat
  /-- `SHIFT_AMOUNT_BITS` (40_itype_alu_immediate.md R112, 42_rtype_alu_register.md R142). -/
  shiftAmountBits : Nat
  /-- `SRA_FUNC` (30_encoding.md R73). -/
  sraFunc : BitVec 11
  /-- `SRAI_OPCODE` (30_encoding.md R73). -/
  sraiOpcode : BitVec 6
  /-- `ADMIT_SRA` (30_encoding.md R73). -/
  admitSra : Bool
  /-- `HALT_PC`, OPEN, given by the launch; `none` while no launch has given it (70_reset_and_hazards.md R204). -/
  haltPc : Option Word
deriving DecidableEq, Repr

/-- FREE VALUE: the byte of data memory at an address that neither the launch image nor a `sw` has written ("any value",
10_state.md R33; 92_eei_decisions.md D27). It has no body, so no statement can rest on what it is (log 5). -/
opaque Config.freeByte : Nat → Byte

end Sys2Proof
end

