-- ==== Sys2Proof/Machine/Params.lean ====
section
/-! DEFINITION. The values the parameters and the registers have in `State.reset`: the defaults of 00_scope.md R5, and the model's
own values where the spec leaves the value OPEN or unspecified (log 3, log 4). -/

namespace Sys2Proof

/-- The defaults of 00_scope.md R5. `IMEM_SIZE`, `DMEM_SIZE` and `HALT_PC` are OPEN in the spec: DESIGN CHOICE 2^32, 2^32 and not
given (log 3, unsafe). `R0_HARDWIRED`, `BYTE_ORDER`, `SRA_FUNC` and `SRAI_OPCODE` rest on general knowledge by the spec's own mark: PRESUMED
(log 9, log 10, log 20, unsafe). -/
def Params.default : Config where
  xlen := .bits32
  nregs := .regs32
  r0Hardwired := true
  pcStep := 4
  targetBaseOffset := 4
  linkOffset := 4
  branchDelaySlots := 0
  dmemAddressing := .byte
  dmemMisaligned := .refuse
  byteOrder := .big
  imemBase := 0
  imemSize := 2 ^ 32
  dmemBase := 0
  dmemSize := 2 ^ 32
  resetPc := 0
  funcMatchBits := 11
  shiftAmountBits := 32
  sraFunc := 0x007
  sraiOpcode := 0x17
  admitSra := true
  haltPc := none

/-- The register values of `State.reset`. `RF[0]` is 0 (10_state.md R33, with the default `R0_HARDWIRED`). `RF[1]` to `RF[31]`
are "any value", "Never 0 by default" (10_state.md R33): DESIGN CHOICE, each holds 0xDEADBEEF (log 4, unsafe). -/
def Params.resetRegs : Vector Word 32 :=
  (Vector.replicate 32 (0xDEADBEEF : Word)).set 0 0

end Sys2Proof
end

