-- ==== Sys2Proof/Syntax.lean ====
section
/-! DEFINITION. The 29 instructions of 00_scope.md R2, one constructor per row of spec/opcode_table.json. Operands stand in the
order of the assembly syntax of 30_encoding.md R86 (the destination first; `sw` has none). A field the instruction ignores
(30_encoding.md R74) is no operand. -/

namespace Sys2Proof

inductive Instr where
  /-- R100 `addi Rd, Rs1, num` -/
  | addi (rd rs1 : Reg) (imm : BitVec 16)
  /-- R101 `subi Rd, Rs1, num` -/
  | subi (rd rs1 : Reg) (imm : BitVec 16)
  /-- R102 `andi Rd, Rs1, num` -/
  | andi (rd rs1 : Reg) (uimm : BitVec 16)
  /-- R103 `ori Rd, Rs1, num` -/
  | ori (rd rs1 : Reg) (uimm : BitVec 16)
  /-- R104 `xori Rd, Rs1, num` -/
  | xori (rd rs1 : Reg) (uimm : BitVec 16)
  /-- R105 `slli Rd, Rs1, num` -/
  | slli (rd rs1 : Reg) (uimm : BitVec 16)
  /-- R106 `srli Rd, Rs1, num` -/
  | srli (rd rs1 : Reg) (uimm : BitVec 16)
  /-- R107 `srai Rd, Rs1, num` -/
  | srai (rd rs1 : Reg) (uimm : BitVec 16)
  /-- R108 `snei Rd, Rs1, num` -/
  | snei (rd rs1 : Reg) (imm : BitVec 16)
  /-- R109 `slei Rd, Rs1, num` -/
  | slei (rd rs1 : Reg) (imm : BitVec 16)
  /-- R110 `sgei Rd, Rs1, num` -/
  | sgei (rd rs1 : Reg) (imm : BitVec 16)
  /-- R120 `lw Rd, num(Rs1)` -/
  | lw (rd rs1 : Reg) (imm : BitVec 16)
  /-- R121 `sw num(Rs1), Rs2` -/
  | sw (rs1 rs2 : Reg) (imm : BitVec 16)
  /-- R130 `add Rd, Rs1, Rs2` -/
  | add (rd rs1 rs2 : Reg)
  /-- R131 `sub Rd, Rs1, Rs2` -/
  | sub (rd rs1 rs2 : Reg)
  /-- R132 `and Rd, Rs1, Rs2` -/
  | and (rd rs1 rs2 : Reg)
  /-- R133 `or Rd, Rs1, Rs2` -/
  | or (rd rs1 rs2 : Reg)
  /-- R134 `xor Rd, Rs1, Rs2` -/
  | xor (rd rs1 rs2 : Reg)
  /-- R135 `sll Rd, Rs1, Rs2` -/
  | sll (rd rs1 rs2 : Reg)
  /-- R136 `srl Rd, Rs1, Rs2` -/
  | srl (rd rs1 rs2 : Reg)
  /-- R137 `sra Rd, Rs1, Rs2` -/
  | sra (rd rs1 rs2 : Reg)
  /-- R138 `sne Rd, Rs1, Rs2` -/
  | sne (rd rs1 rs2 : Reg)
  /-- R139 `sle Rd, Rs1, Rs2` -/
  | sle (rd rs1 rs2 : Reg)
  /-- R140 `sge Rd, Rs1, Rs2` -/
  | sge (rd rs1 rs2 : Reg)
  /-- R150 `beqz Rs1, target`: the operand held here is the offset field -/
  | beqz (rs1 : Reg) (off : BitVec 16)
  /-- R151 `bnez Rs1, target`: the operand held here is the offset field -/
  | bnez (rs1 : Reg) (off : BitVec 16)
  /-- R152 `j target`: the operand held here is the offset field -/
  | j (off : BitVec 26)
  /-- R153 `jal target`: the operand held here is the offset field -/
  | jal (off : BitVec 26)
  /-- R170 `nop` -/
  | nop
deriving DecidableEq, Repr

end Sys2Proof
end

