-- ==== Sys2Proof/WellFormed.lean ====
section
/-! DEFINITION. What a well-formed instruction is under the parameters of the machine, and what a well-formed choice of the
parameters is. Operand types already bound every register number and every field, and no field value is reserved
(40_itype_alu_immediate.md R111(f), 42_rtype_alu_register.md R141(f)). -/

namespace Sys2Proof

/-- `sra` and `srai` are instructions of the machine only when `ADMIT_SRA` holds (30_encoding.md R73). -/
def Instr.wf (cfg : Config) : Instr → Bool
  | .sra _ _ _ => cfg.admitSra
  | .srai _ _ _ => cfg.admitSra
  | .addi .. | .subi .. | .andi .. | .ori .. | .xori .. | .slli .. | .srli .. | .snei .. | .slei .. | .sgei .. => true
  | .lw .. | .sw .. => true
  | .add .. | .sub .. | .and .. | .or .. | .xor .. | .sll .. | .srl .. | .sne .. | .sle .. | .sge .. => true
  | .beqz .. | .bnez .. | .j .. | .jal .. | .nop => true

/-- The OPCODE values that are not free for `srai`: 0 (every R-type word) and the 17 rows of 30_encoding.md R71 that the
source gives. -/
def takenOpcodes : List (BitVec 6) :=
  [0x00, 0x02, 0x03, 0x04, 0x05, 0x08, 0x0a, 0x0c, 0x0d, 0x0e, 0x14, 0x15, 0x16, 0x19, 0x1c, 0x1d, 0x23, 0x2b]

/-- The FUNC values that are not free for `sra`: the 10 rows of 30_encoding.md R72 that the source gives. -/
def takenFuncs : List (BitVec 11) :=
  [0x04, 0x06, 0x20, 0x22, 0x24, 0x25, 0x26, 0x29, 0x2c, 0x2d]

/-- `RESET_PC` and `HALT_PC` are multiples of 4 (70_reset_and_hazards.md R200, R204). -/
def Config.pcsAligned (cfg : Config) : Bool :=
  cfg.resetPc.toNat % 4 == 0 && (cfg.haltPc.map (fun h => h.toNat % 4 == 0)).getD true

/-- `FUNC_MATCH_BITS` is at least the table's 6 digits and at most the 11 bits of the field (30_encoding.md R72), and the codes
of `sra` and `srai` collide with no row of the source's table (30_encoding.md R73). -/
def Config.codesDistinct (cfg : Config) : Bool :=
  decide (6 ≤ cfg.funcMatchBits) && decide (cfg.funcMatchBits ≤ 11) &&
    takenFuncs.all (fun f => f.toNat % 2 ^ cfg.funcMatchBits != cfg.sraFunc.toNat % 2 ^ cfg.funcMatchBits) &&
    takenOpcodes.all (fun op => op != cfg.sraiOpcode)

/-- The two memories lie inside the 32-bit address space (20_memory.md R40, R41). DESIGN CHOICE: any base is allowed, also one that is no
multiple of 4, which the spec neither allows nor forbids (log 26, unsafe off the default base). -/
def Config.memoriesFit (cfg : Config) : Bool :=
  decide (cfg.imemBase + cfg.imemSize ≤ 2 ^ 32) && decide (cfg.dmemBase + cfg.dmemSize ≤ 2 ^ 32)

/-- A choice of the parameters that the spec's rules allow. Where they leave open which values are allowed (`IMEM_BASE`, `PC_STEP`,
`TARGET_BASE_OFFSET`, `LINK_OFFSET`), every value is (DESIGN CHOICE, log 26, log 1). -/
def Config.wf (cfg : Config) : Bool :=
  cfg.pcsAligned && cfg.codesDistinct && cfg.memoriesFit

end Sys2Proof
end

