-- ==== Sys2Proof/Decode.lean ====
section
/-! DEFINITION. Bytes to words (20_memory.md R42, R46), the fields of a word (30_encoding.md R61 to R66), the OPCODE and FUNC
maps (R71, R72), the decoder (R70) and its inverse, the encoder (R90). -/

namespace Sys2Proof

/-! ### Byte order (20_memory.md R46) -/

/-- The word whose four bytes stand at rising addresses `b0, b1, b2, b3`. -/
def wordOfBytes : ByteOrder → Byte → Byte → Byte → Byte → Word
  | .big, b0, b1, b2, b3 => b0 ++ b1 ++ b2 ++ b3
  | .little, b0, b1, b2, b3 => b3 ++ b2 ++ b1 ++ b0

/-- The four bytes of a word, the byte of the lowest address first. -/
def bytesOfWord : ByteOrder → Word → List Byte
  | .big, w => [w.extractLsb' 24 8, w.extractLsb' 16 8, w.extractLsb' 8 8, w.extractLsb' 0 8]
  | .little, w => [w.extractLsb' 0 8, w.extractLsb' 8 8, w.extractLsb' 16 8, w.extractLsb' 24 8]

/-! ### Fields (30_encoding.md R61, R64, R65, R66) -/

/-- `OPCODE` = `iw[31:26]`. -/
def opcodeField (iw : Word) : BitVec 6 := iw.extractLsb' 26 6

/-- `rs1` = `iw[25:21]`. -/
def rs1Field (iw : Word) : Reg := (iw.extractLsb' 21 5).toFin

/-- `rs2` = `iw[20:16]`, the destination of an I-type word. -/
def rs2Field (iw : Word) : Reg := (iw.extractLsb' 16 5).toFin

/-- `rs3` = `iw[15:11]`, the destination of an R-type word. -/
def rs3Field (iw : Word) : Reg := (iw.extractLsb' 11 5).toFin

/-- `FUNC` = `iw[10:0]`. -/
def funcField (iw : Word) : BitVec 11 := iw.extractLsb' 0 11

/-- `imm_i_type` = `iw[15:0]`. -/
def imm16Field (iw : Word) : BitVec 16 := iw.extractLsb' 0 16

/-- `imm_j_type` = `iw[25:0]`. -/
def imm26Field (iw : Word) : BitVec 26 := iw.extractLsb' 0 26

/-! ### The operation codes (30_encoding.md R71, R72) -/

def opJ : BitVec 6 := 0x02
def opJal : BitVec 6 := 0x03
def opBeqz : BitVec 6 := 0x04
def opBnez : BitVec 6 := 0x05
def opAddi : BitVec 6 := 0x08
def opSubi : BitVec 6 := 0x0a
def opAndi : BitVec 6 := 0x0c
def opOri : BitVec 6 := 0x0d
def opXori : BitVec 6 := 0x0e
def opSlli : BitVec 6 := 0x14
def opNop : BitVec 6 := 0x15
def opSrli : BitVec 6 := 0x16
def opSnei : BitVec 6 := 0x19
def opSlei : BitVec 6 := 0x1c
def opSgei : BitVec 6 := 0x1d
def opLw : BitVec 6 := 0x23
def opSw : BitVec 6 := 0x2b

def funcSll : BitVec 11 := 0x04
def funcSrl : BitVec 11 := 0x06
def funcAdd : BitVec 11 := 0x20
def funcSub : BitVec 11 := 0x22
def funcAnd : BitVec 11 := 0x24
def funcOr : BitVec 11 := 0x25
def funcXor : BitVec 11 := 0x26
def funcSne : BitVec 11 := 0x29
def funcSle : BitVec 11 := 0x2c
def funcSge : BitVec 11 := 0x2d

/-- An I-type word as its instruction, `Rd` from bits 20:16. -/
def readI (mk : Reg → Reg → BitVec 16 → Instr) (iw : Word) : Instr :=
  mk (rs2Field iw) (rs1Field iw) (imm16Field iw)

/-- A store word as its instruction: bits 20:16 name a source (30_encoding.md R63). -/
def readStore (mk : Reg → Reg → BitVec 16 → Instr) (iw : Word) : Instr :=
  mk (rs1Field iw) (rs2Field iw) (imm16Field iw)

/-- A branch word as its instruction: bits 20:16 are ignored (30_encoding.md R74). -/
def readBranch (mk : Reg → BitVec 16 → Instr) (iw : Word) : Instr :=
  mk (rs1Field iw) (imm16Field iw)

/-- A J-type word as its instruction. -/
def readJ (mk : BitVec 26 → Instr) (iw : Word) : Instr :=
  mk (imm26Field iw)

/-- An R-type word as its instruction, `Rd` from bits 15:11. -/
def readR (mk : Reg → Reg → Reg → Instr) (iw : Word) : Instr :=
  mk (rs3Field iw) (rs1Field iw) (rs2Field iw)

/-- The OPCODE map of 30_encoding.md R71, less `srai`. -/
def opcodeMap : List (BitVec 6 × (Word → Instr)) :=
  [(opJ, readJ .j), (opJal, readJ .jal), (opBeqz, readBranch .beqz), (opBnez, readBranch .bnez),
    (opAddi, readI .addi), (opSubi, readI .subi), (opAndi, readI .andi), (opOri, readI .ori), (opXori, readI .xori),
    (opSlli, readI .slli), (opNop, fun _ => .nop), (opSrli, readI .srli),
    (opSnei, readI .snei), (opSlei, readI .slei), (opSgei, readI .sgei), (opLw, readI .lw), (opSw, readStore .sw)]

/-- The FUNC map of 30_encoding.md R72, less `sra`. -/
def funcMap : List (BitVec 11 × (Word → Instr)) :=
  [(funcSll, readR .sll), (funcSrl, readR .srl), (funcAdd, readR .add), (funcSub, readR .sub),
    (funcAnd, readR .and), (funcOr, readR .or), (funcXor, readR .xor),
    (funcSne, readR .sne), (funcSle, readR .sle), (funcSge, readR .sge)]

/-! ### The decoder (30_encoding.md R70) -/

/-- Why a word or a byte string is no instruction. The first two are the undefined encodings of 30_encoding.md R80. -/
inductive Reject where
  /-- The OPCODE is in no row of the OPCODE map. -/
  | undefinedOpcode (op : BitVec 6)
  /-- The OPCODE is 0 and the FUNC is in no row of the FUNC map. -/
  | undefinedFunc (func : BitVec 11)
  /-- Fewer than the four bytes of an instruction word (30_encoding.md R60). -/
  | truncated
deriving DecidableEq, Repr

/-- Two FUNC values agree in their low `FUNC_MATCH_BITS` bits (30_encoding.md R72). -/
def funcMatches (cfg : Config) (code func : BitVec 11) : Bool :=
  code.toNat % 2 ^ cfg.funcMatchBits == func.toNat % 2 ^ cfg.funcMatchBits

/-- An R-type word (OPCODE 0) by the FUNC map. The rows the source gives come before `sra` (log 11). -/
def decodeFunc (cfg : Config) (iw : Word) : Except Reject Instr :=
  match funcMap.find? (fun row => funcMatches cfg row.1 (funcField iw)) with
  | some row => .ok (row.2 iw)
  | none =>
    if cfg.admitSra && funcMatches cfg cfg.sraFunc (funcField iw) then .ok (readR .sra iw)
    else .error (.undefinedFunc (funcField iw))

/-- A word with OPCODE other than 0 by the OPCODE map. The rows the source gives come before `srai` (log 11). -/
def decodeOpcode (cfg : Config) (iw : Word) : Except Reject Instr :=
  match opcodeMap.find? (fun row => row.1 == opcodeField iw) with
  | some row => .ok (row.2 iw)
  | none =>
    if cfg.admitSra && cfg.sraiOpcode == opcodeField iw then .ok (readI .srai iw)
    else .error (.undefinedOpcode (opcodeField iw))

/-- The decoder of 30_encoding.md R70: total on every word. -/
def decode (cfg : Config) (iw : Word) : Except Reject Instr :=
  if opcodeField iw = 0 then decodeFunc cfg iw else decodeOpcode cfg iw

/-- The decoder on bytes: it takes exactly the four bytes of one word (30_encoding.md R60) and gives the rest back. -/
def decodeBytes (cfg : Config) : List Byte → Except Reject (Instr × List Byte)
  | b0 :: b1 :: b2 :: b3 :: rest => (decode cfg (wordOfBytes cfg.byteOrder b0 b1 b2 b3)).map (fun i => (i, rest))
  | _ => .error .truncated

/-- The instruction the decoder reads, under the default parameters, from a table row's bits `w`: one word, whose bits above
`nbits` are 0, laid out in the byte order of the hardware. -/
def decodeTableWord (nbits w : Nat) : Option Instr :=
  (decodeBytes Params.default
      (bytesOfWord Params.default.byteOrder (BitVec.ofNat 32 (w % 2 ^ nbits)))).toOption.map Prod.fst

/-! ### The encoder (30_encoding.md R90; unused bits are zero, R74) -/

/-- The 5-bit field that names a register (30_encoding.md R66). -/
def regBits (r : Reg) : BitVec 5 := BitVec.ofFin r

def encodeI (op : BitVec 6) (rs1 rd : Reg) (imm : BitVec 16) : Word := op ++ regBits rs1 ++ regBits rd ++ imm

def encodeR (func : BitVec 11) (rs1 rs2 rd : Reg) : Word := (0 : BitVec 6) ++ regBits rs1 ++ regBits rs2 ++ regBits rd ++ func

def encodeJ (op : BitVec 6) (off : BitVec 26) : Word := op ++ off

/-- The canonical word of an instruction. -/
def encode (cfg : Config) : Instr → Word
  | .addi rd rs1 imm => encodeI opAddi rs1 rd imm
  | .subi rd rs1 imm => encodeI opSubi rs1 rd imm
  | .andi rd rs1 uimm => encodeI opAndi rs1 rd uimm
  | .ori rd rs1 uimm => encodeI opOri rs1 rd uimm
  | .xori rd rs1 uimm => encodeI opXori rs1 rd uimm
  | .slli rd rs1 uimm => encodeI opSlli rs1 rd uimm
  | .srli rd rs1 uimm => encodeI opSrli rs1 rd uimm
  | .srai rd rs1 uimm => encodeI cfg.sraiOpcode rs1 rd uimm
  | .snei rd rs1 imm => encodeI opSnei rs1 rd imm
  | .slei rd rs1 imm => encodeI opSlei rs1 rd imm
  | .sgei rd rs1 imm => encodeI opSgei rs1 rd imm
  | .lw rd rs1 imm => encodeI opLw rs1 rd imm
  | .sw rs1 rs2 imm => encodeI opSw rs1 rs2 imm
  | .add rd rs1 rs2 => encodeR funcAdd rs1 rs2 rd
  | .sub rd rs1 rs2 => encodeR funcSub rs1 rs2 rd
  | .and rd rs1 rs2 => encodeR funcAnd rs1 rs2 rd
  | .or rd rs1 rs2 => encodeR funcOr rs1 rs2 rd
  | .xor rd rs1 rs2 => encodeR funcXor rs1 rs2 rd
  | .sll rd rs1 rs2 => encodeR funcSll rs1 rs2 rd
  | .srl rd rs1 rs2 => encodeR funcSrl rs1 rs2 rd
  | .sra rd rs1 rs2 => encodeR cfg.sraFunc rs1 rs2 rd
  | .sne rd rs1 rs2 => encodeR funcSne rs1 rs2 rd
  | .sle rd rs1 rs2 => encodeR funcSle rs1 rs2 rd
  | .sge rd rs1 rs2 => encodeR funcSge rs1 rs2 rd
  | .beqz rs1 off => encodeI opBeqz rs1 0 off
  | .bnez rs1 off => encodeI opBnez rs1 0 off
  | .j off => encodeJ opJ off
  | .jal off => encodeJ opJal off
  | .nop => encodeJ opNop 0

/-- The bytes of an instruction, the lowest address first. -/
def encodeBytes (cfg : Config) (i : Instr) : List Byte := bytesOfWord cfg.byteOrder (encode cfg i)

end Sys2Proof
end

