-- ==== Sys2Proof/Machine/State.lean ====
section
/-! DEFINITION. The state of the machine (10_state.md), the reasons a step is refused (60_exceptions.md R181), and the state after
reset (70_reset_and_hazards.md R200). -/

namespace Sys2Proof.Machine

/-- There is no fault: the hardware has no architectural exception and no trap mechanism (60_exceptions.md R180), so nothing
raises one and the type is empty. Safe: no run is ended by a fault (log 8). -/
inductive Fault where
deriving DecidableEq, Repr

/-- The situations without a meaning, a closed list, each with its identifying value (60_exceptions.md R181). The first five are
safe: the run has no meaning from there, so nothing can be proved of it. -/
inductive Refusal where
  /-- Raised by the fetch when a step starts with `pc mod 4 ≠ 0` (10_state.md R26). Safe. -/
  | misalignedFetch (pc : Word)
  /-- Raised by the fetch when `pc` is outside the instruction memory or at a word no launch filled (20_memory.md R43). Safe. -/
  | fetchOutOfRange (pc : Word)
  /-- Raised by the fetch when the word matches no row of the opcode maps (30_encoding.md R80). Safe. -/
  | undefinedEncoding (pc iw : Word)
  /-- Raised by `lw` and `sw` when `EA mod 4 ≠ 0`, with `DMEM_MISALIGNED` = refuse (20_memory.md R47). Safe. -/
  | misalignedData (ea : Word)
  /-- Raised by `lw` and `sw` when `EA` is outside the data memory (20_memory.md R48). Safe. -/
  | dataOutOfRange (ea : Word)
  /-- An instruction of the table that has no meaning in the model. No arm of `exec` answers it. Safe. -/
  | notModelled (mnemonic : String)
deriving DecidableEq, Repr

/-- A memory: the bytes that have been written, as (address, byte) pairs. -/
abbrev Memory := List Host.Cell

/-- The state. The first three fields are the machine's own (00_scope.md R14); the others are what R14 calls parameters of the
step, carried here because a step takes no other argument (log 2, log 6), and the transfers that `BRANCH_DELAY_SLOTS` still owes
(log 16). -/
structure State where
  /-- `RF[0]` to `RF[31]` (10_state.md R20). Read and written by `State.reg` and `State.setReg` alone. -/
  regs : Vector Word 32
  /-- `PC` (10_state.md R25). -/
  pc : Word
  /-- `MEM[]`, the data memory (20_memory.md R40): the bytes written by the launch or by `sw`. -/
  dmem : Memory
  /-- The instruction memory (20_memory.md R41): the bytes of the program the launch loaded. -/
  imem : Memory
  /-- One entry per delay slot, the next to leave first: the target of a transfer that is still owed, or none. Empty with the
  default `BRANCH_DELAY_SLOTS` = 0 (43_control_transfer.md R157). -/
  pending : List (Option Word)
  /-- The parameters of 00_scope.md R5. -/
  cfg : Config
deriving DecidableEq, Repr

/-- The machine right after reset (70_reset_and_hazards.md R200, 10_state.md R33), before any launch has loaded a program or a
data image. -/
def State.reset : State where
  regs := Params.resetRegs
  pc := Params.default.resetPc
  dmem := []
  imem := []
  pending := List.replicate Params.default.branchDelaySlots none
  cfg := Params.default

end Sys2Proof.Machine
end

