-- ==== Sys2Proof/Machine/Ops.lean ====
section
/-! DEFINITION. The named operations over registers, the program counter and the two memories. Taking an exception and returning
from one have no operation here: the hardware has neither (60_exceptions.md R180, R184, R185). -/

namespace Sys2Proof.Machine

/-! ### Registers (10_state.md R20 to R23) -/

/-- Register `r` is the hardwired register 0 (10_state.md R22). -/
def State.readsZero (s : State) (r : Reg) : Bool := s.cfg.r0Hardwired && r == 0

/-- `x[r]`: register 0 reads 0 when `R0_HARDWIRED` (10_state.md R22). -/
def State.reg (s : State) (r : Reg) : Word :=
  if s.readsZero r then 0 else s.regs[r.val]

/-- `x[r] <- v`: no effect on register 0 when `R0_HARDWIRED` (10_state.md R22). -/
def State.setReg (s : State) (r : Reg) (v : Word) : State :=
  if s.readsZero r then s else { s with regs := s.regs.set r v }

/-! ### The program counter (10_state.md R25, R27) -/

/-- `pc <- A + PC_STEP`, by default `A + 4`, modulo 2^32 (10_state.md R25, R27). -/
def State.advance (s : State) : State := { s with pc := s.pc + s.cfg.pcStep }

/-- `pc <- A + TARGET_BASE_OFFSET + offset`, modulo 2^32 (43_control_transfer.md R155; PRESUMED by the
spec's decisions D4 and D7, log 21, unsafe). -/
def State.transfer (s : State) (offset : Word) : State :=
  { s with pc := s.pc + s.cfg.targetBaseOffset + offset }

/-! ### A memory as a list of cells: addresses strictly rising, only bytes that have been written -/

/-- The canonical form: addresses strictly rising. An unlisted address reads as no byte, so no entry can equal it. -/
abbrev Memory.wf (m : Memory) : Prop := List.Pairwise (fun c d : Host.Cell => c.1 < d.1) m

/-- The byte that has been written at an address, if any. -/
def Memory.byte? : Memory → Nat → Option Byte
  | [], _ => none
  | (k, b) :: m, a => if k = a then some b else Memory.byte? m a

/-- Write one byte. -/
def Memory.put : Memory → Nat → Byte → Memory
  | [], a, v => [(a, v)]
  | (k, b) :: m, a, v =>
    if a < k then (a, v) :: (k, b) :: m
    else if a = k then (a, v) :: m
    else (k, b) :: Memory.put m a v

/-- Write bytes at consecutive rising addresses. -/
def Memory.putBytes : Memory → Nat → List Byte → Memory
  | m, _, [] => m
  | m, a, b :: bs => Memory.putBytes (m.put a b) (a + 1) bs

/-- Write the four bytes of a word (20_memory.md R45, R46). -/
def Memory.putWord (m : Memory) (order : ByteOrder) (a : Nat) (w : Word) : Memory :=
  m.putBytes a (bytesOfWord order w)

/-- The word of the four bytes at an address, if all four have been written. -/
def Memory.word? (m : Memory) (order : ByteOrder) (a : Nat) : Option Word :=
  match m.byte? a, m.byte? (a + 1), m.byte? (a + 2), m.byte? (a + 3) with
  | some b0, some b1, some b2, some b3 => some (wordOfBytes order b0 b1 b2 b3)
  | _, _, _, _ => none

/-- A list of words at consecutive word addresses, from `base` up (70_reset_and_hazards.md R201). -/
def Memory.ofWords (order : ByteOrder) : Nat → List Word → Memory
  | _, [] => []
  | base, w :: ws => (Memory.ofWords order (base + 4) ws).putWord order base w

/-! ### The data memory (20_memory.md R40, R44 to R48) -/

/-- One byte of data memory: the byte written there, or the free value of a byte nothing has written (10_state.md R33). -/
def State.dataByte (s : State) (a : Nat) : Byte := (s.dmem.byte? a).getD (Config.freeByte a)

/-- The order of a word's bytes in the cells: `BYTE_ORDER`, which plays no part in a word-indexed memory (20_memory.md R40, R46). -/
def State.dataOrder (s : State) : ByteOrder :=
  match s.cfg.dmemAddressing with
  | .byte => s.cfg.byteOrder
  | .word => .big

/-- `DMEM_BASE ≤ EA` and `EA + 3 < DMEM_BASE + DMEM_SIZE` (20_memory.md R48). -/
def State.inDataMemory (s : State) (a : Nat) : Bool :=
  decide (s.cfg.dmemBase ≤ a) && decide (a + 3 < s.cfg.dmemBase + s.cfg.dmemSize)

/-- The alignment rule of 20_memory.md R47: the byte address an access uses, or the refusal. DESIGN CHOICE: under `ignore_low_bits` the
range test that follows takes the address used (log 14, unsafe off the default). -/
def State.alignData (s : State) (ea : Word) : Except Refusal Nat :=
  match s.cfg.dmemMisaligned with
  | .refuse => if ea.toNat % 4 = 0 then .ok ea.toNat else .error (.misalignedData ea)
  | .ignoreLowBits => .ok (ea.toNat / 4 * 4)
  | .split => .ok ea.toNat

/-- The checks of an access to data memory in the order of 60_exceptions.md R183: the first of the four cells it uses, or the
refusal. A word-indexed memory keeps the word of index `EA` in the cells `4 * EA` to `4 * EA + 3` (DESIGN CHOICE, log 13, safe). -/
def State.dataCell (s : State) (ea : Word) : Except Refusal Nat :=
  match s.cfg.dmemAddressing with
  | .word => if s.inDataMemory ea.toNat then .ok (4 * ea.toNat) else .error (.dataOutOfRange ea)
  | .byte =>
    match s.alignData ea with
    | .error r => .error r
    | .ok a => if s.inDataMemory a then .ok a else .error (.dataOutOfRange ea)

/-- `MemRead`, at a cell that passed the checks (20_memory.md R44). -/
def State.memRead (s : State) (a : Nat) : Word :=
  wordOfBytes s.dataOrder (s.dataByte a) (s.dataByte (a + 1)) (s.dataByte (a + 2)) (s.dataByte (a + 3))

/-- `MemWrite`, at a cell that passed the checks (20_memory.md R45). -/
def State.memWrite (s : State) (a : Nat) (v : Word) : State :=
  { s with dmem := s.dmem.putWord s.dataOrder a v }

/-! ### Outcomes -/

/-- Apply a function to the next state of an outcome; a refusal stays as it is. -/
def onNext (f : State → State) : Host.Outcome State Fault Refusal → Host.Outcome State Fault Refusal
  | .next t => .next (f t)
  | .fault r => .fault r
  | .refused r => .refused r

/-- The end of every instruction that writes one register: write it and advance (40_itype_alu_immediate.md R111,
42_rtype_alu_register.md R141). -/
def writeBack (rd : Reg) (v : Word) (s : State) : Host.Outcome State Fault Refusal :=
  .next ((s.setReg rd v).advance)

end Sys2Proof.Machine
end

