-- ==== Sys2Proof/Machine/Flags.lean ====
section
/-! DEFINITION. The hardware has no flags (10_state.md R28): a comparison leaves its result, 1 or 0, in a general register. This
file holds the comparisons and that result (42_rtype_alu_register.md R143). -/

namespace Sys2Proof.Machine

/-- The whole register a comparison writes: 0x00000001 or 0x00000000. -/
def truthWord (b : Bool) : Word := if b then 1 else 0

/-- All 32 bits differ somewhere (R108, R138). -/
def wordNe (a b : Word) : Bool := a != b

/-- `signed(a) ≤ signed(b)`, exactly (R109, R139). -/
def signedLe (a b : Word) : Bool := decide (a.toInt ≤ b.toInt)

/-- `signed(a) ≥ signed(b)`, exactly (R110, R140). -/
def signedGe (a b : Word) : Bool := decide (b.toInt ≤ a.toInt)

end Sys2Proof.Machine
end

