-- ==== Sys2Proof/Machine/Operands.lean ====
section
/-! DEFINITION. The operand forms: extension (00_scope.md R9), shifts (R10) and their counts (40_itype_alu_immediate.md R112,
42_rtype_alu_register.md R142), and the effective address (41_load_store.md R122). -/

namespace Sys2Proof.Machine

/-- `sext_32` (00_scope.md R9). -/
def sext32 {n : Nat} (v : BitVec n) : Word := v.signExtend 32

/-- `zext_32` (00_scope.md R9). -/
def zext32 {n : Nat} (v : BitVec n) : Word := v.setWidth 32

/-- `shl` (00_scope.md R10): 0 for every count of 32 or more. -/
def shl (v : Word) (n : Nat) : Word := if n < 32 then v <<< n else 0

/-- `shr_u` (00_scope.md R10): 0 for every count of 32 or more. -/
def shrU (v : Word) (n : Nat) : Word := if n < 32 then v >>> n else 0

/-- `shr_s` (00_scope.md R10): 32 copies of the sign for every count of 32 or more. -/
def shrS (v : Word) (n : Nat) : Word := if n < 32 then v.sshiftRight n else if v.msb then BitVec.allOnes 32 else 0

/-- The count of a shift: the low `SHIFT_AMOUNT_BITS` bits of the operand, read unsigned (R112, R142;
DEDUCED for values other than 32 and 5, log 12, unsafe). -/
def State.shiftCount (s : State) (operand : Word) : Nat := operand.toNat % 2 ^ s.cfg.shiftAmountBits

/-- The effective address `x[rs1] + sext_32(imm)`, modulo 2^32 (41_load_store.md R122). -/
def State.effectiveAddress (s : State) (rs1 : Reg) (imm : BitVec 16) : Word := s.reg rs1 + sext32 imm

end Sys2Proof.Machine
end

