-- ==== Sys2Proof/Machine/AluImmediate.lean ====
section
/-! DEFINITION. The meanings of the eleven I-type ALU instructions (40_itype_alu_immediate.md R100 to R112). -/

namespace Sys2Proof.Machine

/-- R100. -/
def execAddi (rd rs1 : Reg) (imm : BitVec 16) (s : State) : Host.Outcome State Fault Refusal :=
  writeBack rd (s.reg rs1 + sext32 imm) s

/-- R101. -/
def execSubi (rd rs1 : Reg) (imm : BitVec 16) (s : State) : Host.Outcome State Fault Refusal :=
  writeBack rd (s.reg rs1 - sext32 imm) s

/-- R102. -/
def execAndi (rd rs1 : Reg) (uimm : BitVec 16) (s : State) : Host.Outcome State Fault Refusal :=
  writeBack rd (s.reg rs1 &&& zext32 uimm) s

/-- R103. -/
def execOri (rd rs1 : Reg) (uimm : BitVec 16) (s : State) : Host.Outcome State Fault Refusal :=
  writeBack rd (s.reg rs1 ||| zext32 uimm) s

/-- R104. -/
def execXori (rd rs1 : Reg) (uimm : BitVec 16) (s : State) : Host.Outcome State Fault Refusal :=
  writeBack rd (s.reg rs1 ^^^ zext32 uimm) s

/-- R105. -/
def execSlli (rd rs1 : Reg) (uimm : BitVec 16) (s : State) : Host.Outcome State Fault Refusal :=
  writeBack rd (shl (s.reg rs1) (s.shiftCount (zext32 uimm))) s

/-- R106. -/
def execSrli (rd rs1 : Reg) (uimm : BitVec 16) (s : State) : Host.Outcome State Fault Refusal :=
  writeBack rd (shrU (s.reg rs1) (s.shiftCount (zext32 uimm))) s

/-- R107. -/
def execSrai (rd rs1 : Reg) (uimm : BitVec 16) (s : State) : Host.Outcome State Fault Refusal :=
  writeBack rd (shrS (s.reg rs1) (s.shiftCount (zext32 uimm))) s

/-- R108. -/
def execSnei (rd rs1 : Reg) (imm : BitVec 16) (s : State) : Host.Outcome State Fault Refusal :=
  writeBack rd (truthWord (wordNe (s.reg rs1) (sext32 imm))) s

/-- R109. -/
def execSlei (rd rs1 : Reg) (imm : BitVec 16) (s : State) : Host.Outcome State Fault Refusal :=
  writeBack rd (truthWord (signedLe (s.reg rs1) (sext32 imm))) s

/-- R110. -/
def execSgei (rd rs1 : Reg) (imm : BitVec 16) (s : State) : Host.Outcome State Fault Refusal :=
  writeBack rd (truthWord (signedGe (s.reg rs1) (sext32 imm))) s

end Sys2Proof.Machine
end

