-- ==== Sys2Proof/Machine/AluRegister.lean ====
section
/-! DEFINITION. The meanings of the eleven R-type instructions (42_rtype_alu_register.md R130 to R143). -/

namespace Sys2Proof.Machine

/-- R130. -/
def execAdd (rd rs1 rs2 : Reg) (s : State) : Host.Outcome State Fault Refusal :=
  writeBack rd (s.reg rs1 + s.reg rs2) s

/-- R131. -/
def execSub (rd rs1 rs2 : Reg) (s : State) : Host.Outcome State Fault Refusal :=
  writeBack rd (s.reg rs1 - s.reg rs2) s

/-- R132. -/
def execAnd (rd rs1 rs2 : Reg) (s : State) : Host.Outcome State Fault Refusal :=
  writeBack rd (s.reg rs1 &&& s.reg rs2) s

/-- R133. -/
def execOr (rd rs1 rs2 : Reg) (s : State) : Host.Outcome State Fault Refusal :=
  writeBack rd (s.reg rs1 ||| s.reg rs2) s

/-- R134. -/
def execXor (rd rs1 rs2 : Reg) (s : State) : Host.Outcome State Fault Refusal :=
  writeBack rd (s.reg rs1 ^^^ s.reg rs2) s

/-- R135. -/
def execSll (rd rs1 rs2 : Reg) (s : State) : Host.Outcome State Fault Refusal :=
  writeBack rd (shl (s.reg rs1) (s.shiftCount (s.reg rs2))) s

/-- R136. -/
def execSrl (rd rs1 rs2 : Reg) (s : State) : Host.Outcome State Fault Refusal :=
  writeBack rd (shrU (s.reg rs1) (s.shiftCount (s.reg rs2))) s

/-- R137. -/
def execSra (rd rs1 rs2 : Reg) (s : State) : Host.Outcome State Fault Refusal :=
  writeBack rd (shrS (s.reg rs1) (s.shiftCount (s.reg rs2))) s

/-- R138. -/
def execSne (rd rs1 rs2 : Reg) (s : State) : Host.Outcome State Fault Refusal :=
  writeBack rd (truthWord (wordNe (s.reg rs1) (s.reg rs2))) s

/-- R139. -/
def execSle (rd rs1 rs2 : Reg) (s : State) : Host.Outcome State Fault Refusal :=
  writeBack rd (truthWord (signedLe (s.reg rs1) (s.reg rs2))) s

/-- R140. -/
def execSge (rd rs1 rs2 : Reg) (s : State) : Host.Outcome State Fault Refusal :=
  writeBack rd (truthWord (signedGe (s.reg rs1) (s.reg rs2))) s

end Sys2Proof.Machine
end

