-- ==== Sys2Proof/Machine/Control.lean ====
section
/-! DEFINITION. The meanings of the branches, the jumps and `nop` (43_control_transfer.md R150 to R155, 44_nop.md R170). -/

namespace Sys2Proof.Machine

/-- R150. -/
def execBeqz (rs1 : Reg) (off : BitVec 16) (s : State) : Host.Outcome State Fault Refusal :=
  .next (if s.reg rs1 = 0 then s.transfer (sext32 off) else s.advance)

/-- R151. -/
def execBnez (rs1 : Reg) (off : BitVec 16) (s : State) : Host.Outcome State Fault Refusal :=
  .next (if s.reg rs1 ≠ 0 then s.transfer (sext32 off) else s.advance)

/-- R152. -/
def execJ (off : BitVec 26) (s : State) : Host.Outcome State Fault Refusal :=
  .next (s.transfer (sext32 off))

/-- R153: the link value and the target both use the address of the `jal` (43_control_transfer.md R155). -/
def execJal (off : BitVec 26) (s : State) : Host.Outcome State Fault Refusal :=
  .next ((s.setReg 31 (s.pc + s.cfg.linkOffset)).transfer (sext32 off))

/-- R170. -/
def execNop (s : State) : Host.Outcome State Fault Refusal :=
  .next s.advance

end Sys2Proof.Machine
end

