-- ==== Sys2Proof/Machine/LoadStore.lean ====
section
/-! DEFINITION. The meanings of `lw` and `sw` (41_load_store.md R120 to R122). -/

namespace Sys2Proof.Machine

/-- R120. -/
def execLw (rd rs1 : Reg) (imm : BitVec 16) (s : State) : Host.Outcome State Fault Refusal :=
  match s.dataCell (s.effectiveAddress rs1 imm) with
  | .error r => .refused r
  | .ok a => writeBack rd (s.memRead a) s

/-- R121. -/
def execSw (rs1 rs2 : Reg) (imm : BitVec 16) (s : State) : Host.Outcome State Fault Refusal :=
  match s.dataCell (s.effectiveAddress rs1 imm) with
  | .error r => .refused r
  | .ok a => .next ((s.memWrite a (s.reg rs2)).advance)

end Sys2Proof.Machine
end

