-- ==== Sys2Proof/Machine/Dispatch.lean ====
section
/-! DEFINITION. One arm per instruction: what executing it does to the state, `pc` included (10_state.md R25). -/

namespace Sys2Proof.Machine

def exec (i : Instr) (s : State) : Host.Outcome State Fault Refusal :=
  match i with
  -- 40_itype_alu_immediate.md
  | .addi rd rs1 imm => Sys2Proof.Machine.execAddi rd rs1 imm s
  | .subi rd rs1 imm => Sys2Proof.Machine.execSubi rd rs1 imm s
  | .andi rd rs1 uimm => Sys2Proof.Machine.execAndi rd rs1 uimm s
  | .ori rd rs1 uimm => Sys2Proof.Machine.execOri rd rs1 uimm s
  | .xori rd rs1 uimm => Sys2Proof.Machine.execXori rd rs1 uimm s
  | .slli rd rs1 uimm => Sys2Proof.Machine.execSlli rd rs1 uimm s
  | .srli rd rs1 uimm => Sys2Proof.Machine.execSrli rd rs1 uimm s
  | .srai rd rs1 uimm => Sys2Proof.Machine.execSrai rd rs1 uimm s
  | .snei rd rs1 imm => Sys2Proof.Machine.execSnei rd rs1 imm s
  | .slei rd rs1 imm => Sys2Proof.Machine.execSlei rd rs1 imm s
  | .sgei rd rs1 imm => Sys2Proof.Machine.execSgei rd rs1 imm s
  -- 41_load_store.md
  | .lw rd rs1 imm => Sys2Proof.Machine.execLw rd rs1 imm s
  | .sw rs1 rs2 imm => Sys2Proof.Machine.execSw rs1 rs2 imm s
  -- 42_rtype_alu_register.md
  | .add rd rs1 rs2 => Sys2Proof.Machine.execAdd rd rs1 rs2 s
  | .sub rd rs1 rs2 => Sys2Proof.Machine.execSub rd rs1 rs2 s
  | .and rd rs1 rs2 => Sys2Proof.Machine.execAnd rd rs1 rs2 s
  | .or rd rs1 rs2 => Sys2Proof.Machine.execOr rd rs1 rs2 s
  | .xor rd rs1 rs2 => Sys2Proof.Machine.execXor rd rs1 rs2 s
  | .sll rd rs1 rs2 => Sys2Proof.Machine.execSll rd rs1 rs2 s
  | .srl rd rs1 rs2 => Sys2Proof.Machine.execSrl rd rs1 rs2 s
  | .sra rd rs1 rs2 => Sys2Proof.Machine.execSra rd rs1 rs2 s
  | .sne rd rs1 rs2 => Sys2Proof.Machine.execSne rd rs1 rs2 s
  | .sle rd rs1 rs2 => Sys2Proof.Machine.execSle rd rs1 rs2 s
  | .sge rd rs1 rs2 => Sys2Proof.Machine.execSge rd rs1 rs2 s
  -- 43_control_transfer.md
  | .beqz rs1 off => Sys2Proof.Machine.execBeqz rs1 off s
  | .bnez rs1 off => Sys2Proof.Machine.execBnez rs1 off s
  | .j off => Sys2Proof.Machine.execJ off s
  | .jal off => Sys2Proof.Machine.execJal off s
  -- 44_nop.md
  | .nop => Sys2Proof.Machine.execNop s

end Sys2Proof.Machine
end

