-- ==== Sys2Proof/Machine/Fetch.lean ====
section
/-! DEFINITION. Instruction fetch and the checks of a step in the order of 10_state.md R25 and 60_exceptions.md R183, the launch
(70_reset_and_hazards.md R201), and what `BRANCH_DELAY_SLOTS` adds around an instruction (43_control_transfer.md R157). -/

namespace Sys2Proof.Machine

/-! ### Fetch -/

/-- `IMEM_BASE ≤ a` and `a + 3 < IMEM_BASE + IMEM_SIZE` (20_memory.md R43). -/
def State.inInstrMemory (s : State) (a : Nat) : Bool :=
  decide (s.cfg.imemBase ≤ a) && decide (a + 3 < s.cfg.imemBase + s.cfg.imemSize)

/-- `IFetch(a)` (20_memory.md R42), or nothing outside the instruction memory or where the launch filled no whole word (R43).
DESIGN CHOICE: where `IMEM_BASE` is no multiple of 4, a fetch answers the word of the four bytes at `a` also when these belong to two
adjacent words of the program (log 26, unsafe off the default base). -/
def State.ifetch? (s : State) (a : Nat) : Option Word :=
  if s.inInstrMemory a then s.imem.word? s.cfg.byteOrder a else none

/-- What the start of a step finds. -/
inductive Fetched where
  /-- `pc` = `HALT_PC`: the run is over (70_reset_and_hazards.md R204). -/
  | runOver
  /-- The instruction to execute. -/
  | instr (i : Instr)
  /-- The step is refused. -/
  | refuse (r : Refusal)
deriving DecidableEq, Repr

/-- The step loop of 10_state.md R25 up to the execution. -/
def State.fetchNext (s : State) : Fetched :=
  if s.pc.toNat % 4 ≠ 0 then .refuse (.misalignedFetch s.pc)
  else if s.cfg.haltPc = some s.pc then .runOver
  else
    match s.ifetch? s.pc.toNat with
    | none => .refuse (.fetchOutOfRange s.pc)
    | some iw =>
      match decode s.cfg iw with
      | .error _ => .refuse (.undefinedEncoding s.pc iw)
      | .ok i => .instr i

/-! ### Delay slots -/

/-- The instruction assigns `pc` in this state: a taken branch or a jump (10_state.md R25). -/
def State.transfers (s : State) : Instr → Bool
  | .beqz rs1 _ => decide (s.reg rs1 = 0)
  | .bnez rs1 _ => decide (s.reg rs1 ≠ 0)
  | .j _ => true
  | .jal _ => true
  | .addi .. | .subi .. | .andi .. | .ori .. | .xori .. | .slli .. | .srli .. | .srai .. | .snei .. | .slei .. | .sgei .. => false
  | .lw .. | .sw .. => false
  | .add .. | .sub .. | .and .. | .or .. | .xor .. | .sll .. | .srl .. | .sra .. | .sne .. | .sle .. | .sge .. => false
  | .nop => false

/-- What stands around an instruction `i` that took `s` to `t`. With `BRANCH_DELAY_SLOTS` = 0 nothing (43_control_transfer.md R157).
Otherwise a transfer is put behind the ones still owed, the oldest entry leaves, and `pc` goes to its target, or to the next word
when it is empty (log 16). -/
def State.settle (s : State) (i : Instr) (t : State) : State :=
  match s.cfg.branchDelaySlots with
  | 0 => t
  | _ + 1 =>
    let queue := s.pending ++ [if s.transfers i then some t.pc else none]
    { t with pc := (queue.head?.join).getD (s.pc + s.cfg.pcStep), pending := queue.tail }

/-! ### The launch (70_reset_and_hazards.md R200, R201) -/

/-- The state before the first step of a launch: the parameters, the program as words from `IMEM_BASE` up, the data image, and
registers the host cannot be assumed to fix, so any values. `RF[0]` is 0 when `R0_HARDWIRED`. -/
def State.launch (cfg : Config) (regs : Vector Word 32) (program : List Word) (image : Memory) : State where
  regs := if cfg.r0Hardwired then regs.set 0 0 else regs
  pc := cfg.resetPc
  dmem := image
  imem := Memory.ofWords cfg.byteOrder cfg.imemBase program
  pending := List.replicate cfg.branchDelaySlots none
  cfg := cfg

/-- The state with a word of program at `pc`, so that the next step fetches it: its four bytes are stored there in `BYTE_ORDER`; the
instruction memory is widened to the whole address space if `pc` lies outside it; a `HALT_PC` at `pc` is taken back (log 6). -/
def State.placeAtPc (s : State) (iw : Word) : State :=
  let inside := s.inInstrMemory s.pc.toNat
  { s with
    imem := s.imem.putWord s.cfg.byteOrder s.pc.toNat iw
    cfg := { s.cfg with
      imemBase := if inside then s.cfg.imemBase else 0
      imemSize := if inside then s.cfg.imemSize else 2 ^ 32
      haltPc := if s.cfg.haltPc = some s.pc then none else s.cfg.haltPc } }

end Sys2Proof.Machine
end

