-- ==== Sys2Proof/Machine/Step.lean ====
section
/-! DEFINITION. One step of the machine (10_state.md R25), and a state with a given next instruction. -/

namespace Sys2Proof.Machine

/-- One step. Where the run is over the state is its final state and stays (70_reset_and_hazards.md R204; log 7). -/
def step (s : State) : Host.Outcome State Fault Refusal :=
  match s.fetchNext with
  | .refuse r => .refused r
  | .runOver => .next s
  | .instr i => onNext (s.settle i) (exec i s)

/-- The state in which the next step runs the instruction whose bits are `w`, numbered as the opcode table numbers them, the
bits above `nbits` being 0. -/
def State.withFetchWord (s : State) (nbits w : Nat) : State :=
  s.placeAtPc (BitVec.ofNat 32 (w % 2 ^ nbits))

end Sys2Proof.Machine
end

