-- ==== Sys2Proof/Machine/Assembly.lean ====
section
/-! DEFINITION. The assembly syntax, in scope by 00_scope.md R3: one line of source to one instruction (30_encoding.md R85 to R88). The
machine itself works from words and uses nothing of this file (92_eei_decisions.md D24; log 17). -/

namespace Sys2Proof

/-! ### Literals (R85, R87) -/

def digit? (c : Char) : Option Nat :=
  if '0' ≤ c ∧ c ≤ '9' then some (c.toNat - '0'.toNat) else none

/-- A decimal number of one digit or more. DESIGN CHOICE: leading zeros are accepted (log 17, safe for the machine). -/
def natOf? : List Char → Option Nat
  | [] => none
  | cs => cs.foldl (fun acc c => acc.bind (fun n => (digit? c).map (fun d => 10 * n + d))) (some 0)

/-- `num`: a decimal integer with an optional sign (R85). -/
def numOf? : List Char → Option Int
  | '-' :: cs => (natOf? cs).map (fun n => -(n : Int))
  | '+' :: cs => (natOf? cs).map (fun n => (n : Int))
  | cs => (natOf? cs).map (fun n => (n : Int))

/-- A register operand `r<n>`, `n` decimal, 0 to 31 (R85). -/
def regOf? : List Char → Option Reg
  | 'r' :: cs => (natOf? cs).bind (fun n => if h : n < 32 then some ⟨n, h⟩ else none)
  | _ => none

/-- A memory operand `num(Rs1)` (R86). -/
def memOf? (cs : List Char) : Option (Int × Reg) :=
  match cs.dropWhile (· != '(') with
  | '(' :: rest =>
    if rest.getLast? = some ')' then
      (numOf? (cs.takeWhile (· != '('))).bind (fun n => (regOf? rest.dropLast).map (fun r => (n, r)))
    else none
  | _ => none

/-- A literal for a signed 16-bit field; outside the range it is rejected (R87). -/
def signed16? (n : Int) : Option (BitVec 16) :=
  if -32768 ≤ n ∧ n ≤ 32767 then some (BitVec.ofInt 16 n) else none

/-- A literal for an unsigned 16-bit field; outside the range it is rejected (R87). -/
def unsigned16? (n : Int) : Option (BitVec 16) :=
  if 0 ≤ n ∧ n ≤ 65535 then some (BitVec.ofInt 16 n) else none

/-- A literal for the signed 26-bit field; outside the range it is rejected (R69, R87). -/
def signed26? (n : Int) : Option (BitVec 26) :=
  if -33554432 ≤ n ∧ n ≤ 33554431 then some (BitVec.ofInt 26 n) else none

/-- A branch or jump target: a number, or a symbol whose address the caller gives (R88; the source has no syntax that defines one).
DESIGN CHOICE: symbols are case-sensitive, the name and the operand must agree in every character (R85 settles the case of mnemonics and
registers only; 91_not_in_source.md N16 lists case sensitivity as missing). The spec is silent as well on an operand that is a number, which
is never looked up as a symbol; on a name given twice, of which the first counts; and on the characters of a name, which may be any
(log 17, safe for the machine). -/
def targetOf? (symbols : List (String × Int)) (cs : List Char) : Option Int :=
  match numOf? cs with
  | some n => some n
  | none => (symbols.find? (fun p => p.1.toList == cs)).map Prod.snd

/-- What the assembler puts in the field of a branch or jump at address `A`: `target - (A + 4)` (R88). -/
def targetOffset (A : Nat) (target : Int) : Int := target - (A + 4)

/-! ### Lines (R85, R86) -/

/-- The forms of R86, each with the instruction it makes. -/
inductive AsmForm where
  | aluSigned (mk : Reg → Reg → BitVec 16 → Instr)
  | aluUnsigned (mk : Reg → Reg → BitVec 16 → Instr)
  | load (mk : Reg → Reg → BitVec 16 → Instr)
  | store (mk : Reg → Reg → BitVec 16 → Instr)
  | register (mk : Reg → Reg → Reg → Instr)
  | branch (mk : Reg → BitVec 16 → Instr)
  | jump (mk : BitVec 26 → Instr)
  | plain (i : Instr)

/-- The mnemonics with their forms (R86). -/
def asmForms : List (String × AsmForm) :=
  [("addi", .aluSigned .addi), ("subi", .aluSigned .subi), ("sgei", .aluSigned .sgei), ("slei", .aluSigned .slei),
    ("snei", .aluSigned .snei), ("andi", .aluUnsigned .andi), ("ori", .aluUnsigned .ori), ("xori", .aluUnsigned .xori),
    ("slli", .aluUnsigned .slli), ("srli", .aluUnsigned .srli), ("srai", .aluUnsigned .srai),
    ("lw", .load .lw), ("sw", .store .sw)] ++
  [("add", .register .add), ("sub", .register .sub), ("and", .register .and), ("or", .register .or), ("xor", .register .xor),
    ("sll", .register .sll), ("srl", .register .srl), ("sra", .register .sra), ("sne", .register .sne), ("sle", .register .sle),
    ("sge", .register .sge), ("beqz", .branch .beqz), ("bnez", .branch .bnez), ("j", .jump .j), ("jal", .jump .jal), ("nop", .plain .nop)]

/-- The operands between commas. -/
def splitCommas (cs : List Char) : List (List Char) :=
  cs.foldr (fun c acc =>
    if c = ',' then [] :: acc
    else match acc with
      | [] => [[c]]
      | a :: as => (c :: a) :: as) [[]]

/-- The instruction of a form with its operands, at address `A`. -/
def AsmForm.build (symbols : List (String × Int)) (A : Nat) : AsmForm → List (List Char) → Option Instr
  | .aluSigned mk, [d, s, n] => do return mk (← regOf? d) (← regOf? s) (← signed16? (← numOf? n))
  | .aluUnsigned mk, [d, s, n] => do return mk (← regOf? d) (← regOf? s) (← unsigned16? (← numOf? n))
  | .load mk, [d, m] => do
    let (n, b) ← memOf? m
    return mk (← regOf? d) b (← signed16? n)
  | .store mk, [m, v] => do
    let (n, b) ← memOf? m
    return mk b (← regOf? v) (← signed16? n)
  | .register mk, [d, s, t] => do return mk (← regOf? d) (← regOf? s) (← regOf? t)
  | .branch mk, [s, t] => do return mk (← regOf? s) (← signed16? (targetOffset A (← targetOf? symbols t)))
  | .jump mk, [t] => do return mk (← signed26? (targetOffset A (← targetOf? symbols t)))
  | .plain i, [[]] => some i
  | _, _ => none

/-- The mnemonic of a line: what stands before its first space. -/
def lineName (line : String) : List Char := line.toList.takeWhile (· != ' ')

/-- The operands of a line, without the spaces before each. DESIGN CHOICE: any number of spaces may stand between the mnemonic and the
first operand, and after `nop`, where the spec says "a space" (log 17, safe for the machine). -/
def lineOperands (line : String) : List (List Char) :=
  (splitCommas ((line.toList.dropWhile (· != ' ')).dropWhile (· == ' '))).map (List.dropWhile (· == ' '))

/-- One line of assembly at address `A`: the mnemonic, a space, operands separated by commas with optional spaces after them
(R85; for more spaces than that, log 17). Anything else is rejected. -/
def assembleLine (symbols : List (String × Int)) (A : Nat) (line : String) : Option Instr :=
  ((asmForms.find? (fun p => p.1.toList == lineName line)).map Prod.snd).bind
    (fun f => f.build symbols A (lineOperands line))

end Sys2Proof
end

