-- ==== Sys2Proof/Safety.lean ====
section
/-! DEFINITION. The terms the statements use: when a run is over and when a state is safe, the invariant, which registers and which
offset an instruction names (10_state.md R24), and the frames of the instructions. -/

namespace Sys2Proof.Machine

/-! ### Runs -/

/-- The run is over: a step starts at `HALT_PC` (70_reset_and_hazards.md R204). -/
abbrev State.runOver (s : State) : Prop := s.pc.toNat % 4 = 0 ∧ s.cfg.haltPc = some s.pc

/-- The step from this state has a meaning: it is not refused (00_scope.md R12). -/
abbrev State.safe (s : State) : Prop := ∃ t, step s = .next t

/-- What every launch establishes and every step keeps: allowed parameters, memories in canonical form, one entry per delay slot, and
a hardwired register 0 that holds 0. -/
abbrev State.Inv (s : State) : Prop :=
  s.cfg.wf = true ∧ s.dmem.wf ∧ s.imem.wf ∧ s.pending.length = s.cfg.branchDelaySlots ∧
    (s.cfg.r0Hardwired = true → s.regs[0] = 0)

/-! ### What an instruction names (10_state.md R24, 43_control_transfer.md R154) -/

/-- The registers an instruction reads. -/
def readSet : Instr → List Reg
  | .addi _ rs1 _ | .subi _ rs1 _ | .andi _ rs1 _ | .ori _ rs1 _ | .xori _ rs1 _ => [rs1]
  | .slli _ rs1 _ | .srli _ rs1 _ | .srai _ rs1 _ | .snei _ rs1 _ | .slei _ rs1 _ | .sgei _ rs1 _ => [rs1]
  | .lw _ rs1 _ => [rs1]
  | .sw rs1 rs2 _ => [rs1, rs2]
  | .add _ rs1 rs2 | .sub _ rs1 rs2 | .and _ rs1 rs2 | .or _ rs1 rs2 | .xor _ rs1 rs2 => [rs1, rs2]
  | .sll _ rs1 rs2 | .srl _ rs1 rs2 | .sra _ rs1 rs2 | .sne _ rs1 rs2 | .sle _ rs1 rs2 | .sge _ rs1 rs2 => [rs1, rs2]
  | .beqz rs1 _ | .bnez rs1 _ => [rs1]
  | .j _ | .jal _ | .nop => []

/-- The register an instruction writes. -/
def destReg : Instr → Option Reg
  | .addi rd _ _ | .subi rd _ _ | .andi rd _ _ | .ori rd _ _ | .xori rd _ _ => some rd
  | .slli rd _ _ | .srli rd _ _ | .srai rd _ _ | .snei rd _ _ | .slei rd _ _ | .sgei rd _ _ => some rd
  | .lw rd _ _ => some rd
  | .add rd _ _ | .sub rd _ _ | .and rd _ _ | .or rd _ _ | .xor rd _ _ => some rd
  | .sll rd _ _ | .srl rd _ _ | .sra rd _ _ | .sne rd _ _ | .sle rd _ _ | .sge rd _ _ => some rd
  | .jal _ => some 31
  | .sw _ _ _ | .beqz _ _ | .bnez _ _ | .j _ | .nop => none

/-- The byte offset of a branch or jump, with its sign. -/
def offsetOf : Instr → Option Int
  | .beqz _ off | .bnez _ off => some off.toInt
  | .j off | .jal off => some off.toInt
  | .addi .. | .subi .. | .andi .. | .ori .. | .xori .. | .slli .. | .srli .. | .srai .. | .snei .. | .slei .. | .sgei .. => none
  | .lw .. | .sw .. => none
  | .add .. | .sub .. | .and .. | .or .. | .xor .. | .sll .. | .srl .. | .sra .. | .sne .. | .sle .. | .sge .. => none
  | .nop => none

/-! ### Addresses of the spec, in exact arithmetic -/

/-- `EA`: the unsigned base plus the signed displacement, modulo 2^32 (41_load_store.md R122). -/
def addressOf (s : State) (rs1 : Reg) (imm : BitVec 16) : Word := BitVec.ofInt 32 ((s.reg rs1).toNat + imm.toInt)

/-- `A + TARGET_BASE_OFFSET + offset`, modulo 2^32 (43_control_transfer.md R155). -/
def targetOf (s : State) (offset : Int) : Word := BitVec.ofInt 32 (s.pc.toNat + s.cfg.targetBaseOffset.toNat + offset)

/-- The next word, `A + PC_STEP`, by default `A + 4`, modulo 2^32 (10_state.md R25, R27). -/
def nextWord (s : State) : Word := BitVec.ofNat 32 (s.pc.toNat + s.cfg.pcStep.toNat)

/-- The four bytes of data memory from `a` up, as a word in the given order (20_memory.md R46). -/
def bytesAt (s : State) (order : ByteOrder) (a : Nat) : Word :=
  match order with
  | .big => s.dataByte a ++ s.dataByte (a + 1) ++ s.dataByte (a + 2) ++ s.dataByte (a + 3)
  | .little => s.dataByte (a + 3) ++ s.dataByte (a + 2) ++ s.dataByte (a + 1) ++ s.dataByte a

/-- The byte of `v` at distance `k` from the lowest address of the word (20_memory.md R46). -/
def byteOf (order : ByteOrder) (v : Word) (k : Nat) : Byte :=
  match order with
  | .big => v.extractLsb' (24 - 8 * k) 8
  | .little => v.extractLsb' (8 * k) 8

/-! ### Refusals (60_exceptions.md R181) -/

/-- `EA` is outside the data memory, as 20_memory.md R48 tests it. -/
def outsideData (s : State) (ea : Nat) : Prop := ea < s.cfg.dmemBase ∨ s.cfg.dmemBase + s.cfg.dmemSize ≤ ea + 3

/-- The step fetches a load or store whose effective address is `ea`. -/
def accesses (s : State) (ea : Word) : Prop :=
  ∃ (rd rs1 : Reg) (imm : BitVec 16),
    (s.fetchNext = .instr (.lw rd rs1 imm) ∨ s.fetchNext = .instr (.sw rs1 rd imm)) ∧ ea = addressOf s rs1 imm

/-- The first three rows of R181: the situations a step meets before it executes, each with its identifying value. -/
def refusedAtFetch (s : State) (q : Refusal) : Prop :=
  (q = .misalignedFetch s.pc ∧ s.pc.toNat % 4 ≠ 0) ∨
    (q = .fetchOutOfRange s.pc ∧ s.ifetch? s.pc.toNat = none) ∨
    ∃ iw, s.ifetch? s.pc.toNat = some iw ∧ q = .undefinedEncoding s.pc iw ∧ ¬ ∃ i, decode s.cfg iw = .ok i

/-! ### Frames -/

/-- The program, the parameters and the transfers owed to delay slots are unchanged. -/
def SameLaunch (s t : State) : Prop := t.imem = s.imem ∧ t.cfg = s.cfg ∧ t.pending = s.pending

/-- Every byte of data memory reads as before, and no byte has become written. -/
def SameData (s t : State) : Prop := (∀ a, t.dataByte a = s.dataByte a) ∧ ∀ a, t.dmem.byte? a = s.dmem.byte? a

/-- Every register reads as before. -/
def SameRegs (s t : State) : Prop := ∀ r, t.reg r = s.reg r

/-- Register `rd` reads `v`, unless it is a hardwired register 0, which reads 0 (10_state.md R22); every other register reads as
before. -/
def RegsWith (s t : State) (rd : Reg) (v : Word) : Prop :=
  (t.reg rd = if rd = 0 ∧ s.cfg.r0Hardwired = true then 0 else v) ∧ ∀ r, r ≠ rd → t.reg r = s.reg r

/-- What an instruction does that writes `v` to register `rd` and goes on at the next word. -/
def WritesReg (s t : State) (rd : Reg) (v : Word) : Prop :=
  RegsWith s t rd v ∧ t.pc = nextWord s ∧ SameData s t ∧ SameLaunch s t

/-- What an instruction does that only sets `pc`. -/
def OnlySetsPc (s t : State) (target : Word) : Prop :=
  SameRegs s t ∧ t.pc = target ∧ SameData s t ∧ SameLaunch s t

/-- What a store of `v` in the four cells from `a` up does: those cells hold its bytes, every other cell is as before, and nothing
else changes but `pc`. -/
def StoresWord (s t : State) (order : ByteOrder) (a : Nat) (v : Word) : Prop :=
  (∀ k, k < 4 → t.dmem.byte? (a + k) = some (byteOf order v k)) ∧
    (∀ b, b < a ∨ a + 4 ≤ b → t.dmem.byte? b = s.dmem.byte? b ∧ t.dataByte b = s.dataByte b) ∧
    SameRegs s t ∧ t.pc = nextWord s ∧ SameLaunch s t

/-! ### Decoding of one row -/

/-- Every word with this OPCODE is this I-type instruction, `Rd` from bits 20:16, `Rs1` from bits 25:21 (30_encoding.md R61). -/
def IWordsDecode (op : BitVec 6) (mk : Reg → Reg → BitVec 16 → Instr) : Prop :=
  ∀ (cfg : Config) (iw : Word), iw.extractLsb' 26 6 = op →
    decode cfg iw = .ok (mk (iw.extractLsb' 16 5).toFin (iw.extractLsb' 21 5).toFin (iw.extractLsb' 0 16))

/-- Every word with OPCODE 0 and this FUNC is this R-type instruction, `Rd` from bits 15:11, `Rs1` from bits 25:21, `Rs2` from bits
20:16 (30_encoding.md R64), `FUNC_MATCH_BITS` being 6 or more (R72). -/
def RWordsDecode (func : BitVec 11) (mk : Reg → Reg → Reg → Instr) : Prop :=
  ∀ (cfg : Config) (iw : Word), 6 ≤ cfg.funcMatchBits → iw.extractLsb' 26 6 = 0 → iw.extractLsb' 0 11 = func →
    decode cfg iw = .ok (mk (iw.extractLsb' 11 5).toFin (iw.extractLsb' 21 5).toFin (iw.extractLsb' 16 5).toFin)

/-- Every word with this OPCODE is this branch; bits 20:16 are ignored (30_encoding.md R74). -/
def BranchWordsDecode (op : BitVec 6) (mk : Reg → BitVec 16 → Instr) : Prop :=
  ∀ (cfg : Config) (iw : Word), iw.extractLsb' 26 6 = op →
    decode cfg iw = .ok (mk (iw.extractLsb' 21 5).toFin (iw.extractLsb' 0 16))

/-- Every word with this OPCODE is this jump (30_encoding.md R65). -/
def JWordsDecode (op : BitVec 6) (mk : BitVec 26 → Instr) : Prop :=
  ∀ (cfg : Config) (iw : Word), iw.extractLsb' 26 6 = op → decode cfg iw = .ok (mk (iw.extractLsb' 0 26))

end Sys2Proof.Machine
end

