-- ==== Sys2Proof/Certificates/Slice0/Obligations.lean ====
section
/-! DEFINITION. The statements for the provers. -/

open Sys2Proof Sys2Proof.Machine

/-! ### Encodings -/

/-- Words of the source's instruction table (95_test_vectors.md section 1.1) decode as the table says, one or more of every family. -/
def Obligations.SourceTableWordsDecode : Prop :=
  decode Params.default 0x2041FFFB = .ok (.addi 1 2 0xFFFB) ∧
  decode Params.default 0x31340008 = .ok (.andi 20 9 8) ∧
  decode Params.default 0x8D13003F = .ok (.lw 19 8 63) ∧
  decode Params.default 0xAC410001 = .ok (.sw 2 1 1) ∧
  decode Params.default 0x028A4820 = .ok (.add 9 20 10) ∧
  decode Params.default 0x1180FFEE = .ok (.beqz 12 0xFFEE) ∧
  decode Params.default 0x0BFFFF3C = .ok (.j 0x3FFFF3C) ∧
  decode Params.default 0x54000000 = .ok .nop ∧
  decode Params.default 0x00000000 = .error (.undefinedFunc 0)

/-- Encoding and then decoding gives the instruction back, for every instruction and every allowed choice of the parameters. -/
def Obligations.DecodeOfEncode : Prop :=
  ∀ (cfg : Config) (i : Instr), cfg.wf = true → i.wf cfg = true → decode cfg (encode cfg i) = .ok i

/-- Decoding and then encoding gives the word back with zeros in the bits that 30_encoding.md R74 says are ignored: with all 11 FUNC bits
compared, no other bit of a word is dropped. -/
def Obligations.EncodeOfDecode : Prop :=
  ∀ (cfg : Config) (iw : Word) (i : Instr), cfg.wf = true → cfg.funcMatchBits = 11 → decode cfg iw = .ok i →
    i.wf cfg = true ∧
    encode cfg i =
      match i with
      | .beqz _ _ => iw &&& 0xFFE0FFFF
      | .bnez _ _ => iw &&& 0xFFE0FFFF
      | .nop => iw &&& 0xFC000000
      | _ => iw

/-- R80, with the lists of R71 and R72 written out: a word decodes exactly when its OPCODE, or for OPCODE 0 its whole FUNC, is in the
map; the step that fetches any other word is refused with that word. -/
def Obligations.UndefinedEncodingsAreRefused : Prop :=
  ∀ (s : State) (iw : Word), s.cfg.wf = true → s.cfg.funcMatchBits = 11 →
    ((∃ i, decode s.cfg iw = .ok i) ↔
      if iw.extractLsb' 26 6 = 0 then
        iw.extractLsb' 0 11 ∈
            [0x04#11, 0x06#11, 0x20#11, 0x22#11, 0x24#11, 0x25#11, 0x26#11, 0x29#11, 0x2c#11, 0x2d#11] ∨
          (s.cfg.admitSra = true ∧ iw.extractLsb' 0 11 = s.cfg.sraFunc)
      else
        iw.extractLsb' 26 6 ∈
            [0x02#6, 0x03#6, 0x04#6, 0x05#6, 0x08#6, 0x0a#6, 0x0c#6, 0x0d#6, 0x0e#6, 0x14#6, 0x15#6, 0x16#6, 0x19#6, 0x1c#6,
              0x1d#6, 0x23#6, 0x2b#6] ∨
          (s.cfg.admitSra = true ∧ iw.extractLsb' 26 6 = s.cfg.sraiOpcode)) ∧
    (s.pc.toNat % 4 = 0 → s.cfg.haltPc ≠ some s.pc → s.ifetch? s.pc.toNat = some iw →
      (¬ ∃ i, decode s.cfg iw = .ok i) → step s = .refused (.undefinedEncoding s.pc iw))

/-- R74: words that differ only in bits an instruction does not use decode to the same instruction, the canonical encoding has zeros
there, and a jump or an R-type instruction has no such bits: two words that decode to the same one are the same word. -/
def Obligations.UnusedBitsAreIgnored : Prop :=
  (∀ (cfg : Config) (iw iw' : Word), iw.extractLsb' 26 6 = 0x04#6 ∨ iw.extractLsb' 26 6 = 0x05#6 →
    iw &&& 0xFFE0FFFF = iw' &&& 0xFFE0FFFF → decode cfg iw = decode cfg iw') ∧
  (∀ (cfg : Config) (iw iw' : Word), iw.extractLsb' 26 6 = 0x15#6 → iw &&& 0xFC000000 = iw' &&& 0xFC000000 →
    decode cfg iw = decode cfg iw' ∧ decode cfg iw = .ok .nop) ∧
  (∀ (cfg : Config) (rs1 : Reg) (off : BitVec 16),
    (encode cfg (.beqz rs1 off)).extractLsb' 16 5 = 0 ∧ (encode cfg (.bnez rs1 off)).extractLsb' 16 5 = 0) ∧
  (∀ cfg : Config, encode cfg .nop = 0x54000000) ∧
  (∀ (cfg : Config) (iw iw' : Word) (i : Instr), cfg.wf = true → cfg.funcMatchBits = 11 →
    iw.extractLsb' 26 6 = 0 ∨ iw.extractLsb' 26 6 = 0x02#6 ∨ iw.extractLsb' 26 6 = 0x03#6 →
    decode cfg iw = .ok i → decode cfg iw' = .ok i → iw = iw')

/-! ### I-type ALU instructions -/

/-- R100. -/
def Obligations.AddiAddsSignedImmediate : Prop :=
  IWordsDecode 0x08 .addi ∧
  ∀ (rd rs1 : Reg) (imm : BitVec 16) (s : State), ∃ t, exec (.addi rd rs1 imm) s = .next t ∧
    WritesReg s t rd (BitVec.ofInt 32 ((s.reg rs1).toNat + imm.toInt))

/-- R101. -/
def Obligations.SubiSubtractsSignedImmediate : Prop :=
  IWordsDecode 0x0a .subi ∧
  ∀ (rd rs1 : Reg) (imm : BitVec 16) (s : State), ∃ t, exec (.subi rd rs1 imm) s = .next t ∧
    WritesReg s t rd (BitVec.ofInt 32 ((s.reg rs1).toNat - imm.toInt))

/-- R102: the immediate is zero-extended. -/
def Obligations.AndiIsBitwiseWithZeroExtension : Prop :=
  IWordsDecode 0x0c .andi ∧
  ∀ (rd rs1 : Reg) (uimm : BitVec 16) (s : State), ∃ t, exec (.andi rd rs1 uimm) s = .next t ∧
    WritesReg s t rd (BitVec.ofNat 32 ((s.reg rs1).toNat &&& uimm.toNat))

/-- R103: the immediate is zero-extended. -/
def Obligations.OriIsBitwiseWithZeroExtension : Prop :=
  IWordsDecode 0x0d .ori ∧
  ∀ (rd rs1 : Reg) (uimm : BitVec 16) (s : State), ∃ t, exec (.ori rd rs1 uimm) s = .next t ∧
    WritesReg s t rd (BitVec.ofNat 32 ((s.reg rs1).toNat ||| uimm.toNat))

/-- R104: the immediate is zero-extended. -/
def Obligations.XoriIsBitwiseWithZeroExtension : Prop :=
  IWordsDecode 0x0e .xori ∧
  ∀ (rd rs1 : Reg) (uimm : BitVec 16) (s : State), ∃ t, exec (.xori rd rs1 uimm) s = .next t ∧
    WritesReg s t rd (BitVec.ofNat 32 ((s.reg rs1).toNat ^^^ uimm.toNat))

/-- R105, the count by R112: the low `SHIFT_AMOUNT_BITS` bits of the unsigned field, not bounded by 31. -/
def Obligations.SlliMultipliesByPowerOfTwo : Prop :=
  IWordsDecode 0x14 .slli ∧
  ∀ (rd rs1 : Reg) (uimm : BitVec 16) (s : State), ∃ t, exec (.slli rd rs1 uimm) s = .next t ∧
    WritesReg s t rd (BitVec.ofNat 32 ((s.reg rs1).toNat * 2 ^ (uimm.toNat % 2 ^ s.cfg.shiftAmountBits)))

/-- R106, the count by R112. -/
def Obligations.SrliDividesUnsigned : Prop :=
  IWordsDecode 0x16 .srli ∧
  ∀ (rd rs1 : Reg) (uimm : BitVec 16) (s : State), ∃ t, exec (.srli rd rs1 uimm) s = .next t ∧
    WritesReg s t rd (BitVec.ofNat 32 ((s.reg rs1).toNat / 2 ^ (uimm.toNat % 2 ^ s.cfg.shiftAmountBits)))

/-- R107, the count by R112, the encoding by the parameter `SRAI_OPCODE`, where `ADMIT_SRA` holds and the code collides with no row. -/
def Obligations.SraiDividesSignedRoundingDown : Prop :=
  (∀ (cfg : Config) (iw : Word), cfg.wf = true → cfg.admitSra = true → iw.extractLsb' 26 6 = cfg.sraiOpcode →
    decode cfg iw = .ok (.srai (iw.extractLsb' 16 5).toFin (iw.extractLsb' 21 5).toFin (iw.extractLsb' 0 16))) ∧
  ∀ (rd rs1 : Reg) (uimm : BitVec 16) (s : State), ∃ t, exec (.srai rd rs1 uimm) s = .next t ∧
    WritesReg s t rd (BitVec.ofInt 32 ((s.reg rs1).toInt.fdiv (2 ^ (uimm.toNat % 2 ^ s.cfg.shiftAmountBits))))

/-- R108. -/
def Obligations.SneiComparesWithSignedImmediate : Prop :=
  IWordsDecode 0x19 .snei ∧
  ∀ (rd rs1 : Reg) (imm : BitVec 16) (s : State), ∃ t, exec (.snei rd rs1 imm) s = .next t ∧
    WritesReg s t rd (if (s.reg rs1).toInt ≠ imm.toInt then 1 else 0)

/-- R109: an exact signed comparison. -/
def Obligations.SleiComparesWithSignedImmediate : Prop :=
  IWordsDecode 0x1c .slei ∧
  ∀ (rd rs1 : Reg) (imm : BitVec 16) (s : State), ∃ t, exec (.slei rd rs1 imm) s = .next t ∧
    WritesReg s t rd (if (s.reg rs1).toInt ≤ imm.toInt then 1 else 0)

/-- R110: an exact signed comparison. -/
def Obligations.SgeiComparesWithSignedImmediate : Prop :=
  IWordsDecode 0x1d .sgei ∧
  ∀ (rd rs1 : Reg) (imm : BitVec 16) (s : State), ∃ t, exec (.sgei rd rs1 imm) s = .next t ∧
    WritesReg s t rd (if imm.toInt ≤ (s.reg rs1).toInt then 1 else 0)

/-! ### Load and store -/

/-- R120, with the default `DMEM_ADDRESSING` = byte and `DMEM_MISALIGNED` = refuse; the other values of these two parameters are in
`LwUnderTheOtherDataMemories`. -/
def Obligations.LwLoadsTheAlignedWord : Prop :=
  IWordsDecode 0x23 .lw ∧
  ∀ (rd rs1 : Reg) (imm : BitVec 16) (s : State), s.cfg.dmemAddressing = .byte → s.cfg.dmemMisaligned = .refuse →
    if (addressOf s rs1 imm).toNat % 4 ≠ 0 then
      exec (.lw rd rs1 imm) s = .refused (.misalignedData (addressOf s rs1 imm))
    else if s.cfg.dmemBase ≤ (addressOf s rs1 imm).toNat ∧
        (addressOf s rs1 imm).toNat + 3 < s.cfg.dmemBase + s.cfg.dmemSize then
      ∃ t, exec (.lw rd rs1 imm) s = .next t ∧ WritesReg s t rd (bytesAt s s.cfg.byteOrder (addressOf s rs1 imm).toNat)
    else exec (.lw rd rs1 imm) s = .refused (.dataOutOfRange (addressOf s rs1 imm))

/-- `lw` under the parameter values the spec keeps beside the defaults (20_memory.md R40, R47): a word-indexed memory, whose word of index
`EA` stands in the cells `4 * EA` to `4 * EA + 3`, most significant byte first (the model's layout, log 13); the low address bits
ignored (the range test is made on the cleared address, log 14); the access split. -/
def Obligations.LwUnderTheOtherDataMemories : Prop :=
  ∀ (rd rs1 : Reg) (imm : BitVec 16) (s : State),
    (s.cfg.dmemAddressing = .word →
      if s.cfg.dmemBase ≤ (addressOf s rs1 imm).toNat ∧
          (addressOf s rs1 imm).toNat + 3 < s.cfg.dmemBase + s.cfg.dmemSize then
        ∃ t, exec (.lw rd rs1 imm) s = .next t ∧ WritesReg s t rd (bytesAt s .big (4 * (addressOf s rs1 imm).toNat))
      else exec (.lw rd rs1 imm) s = .refused (.dataOutOfRange (addressOf s rs1 imm))) ∧
    (s.cfg.dmemAddressing = .byte → s.cfg.dmemMisaligned = .ignoreLowBits →
      if s.cfg.dmemBase ≤ (addressOf s rs1 imm &&& 0xFFFFFFFC).toNat ∧
          (addressOf s rs1 imm &&& 0xFFFFFFFC).toNat + 3 < s.cfg.dmemBase + s.cfg.dmemSize then
        ∃ t, exec (.lw rd rs1 imm) s = .next t ∧
          WritesReg s t rd (bytesAt s s.cfg.byteOrder (addressOf s rs1 imm &&& 0xFFFFFFFC).toNat)
      else exec (.lw rd rs1 imm) s = .refused (.dataOutOfRange (addressOf s rs1 imm))) ∧
    (s.cfg.dmemAddressing = .byte → s.cfg.dmemMisaligned = .split →
      if s.cfg.dmemBase ≤ (addressOf s rs1 imm).toNat ∧
          (addressOf s rs1 imm).toNat + 3 < s.cfg.dmemBase + s.cfg.dmemSize then
        ∃ t, exec (.lw rd rs1 imm) s = .next t ∧ WritesReg s t rd (bytesAt s s.cfg.byteOrder (addressOf s rs1 imm).toNat)
      else exec (.lw rd rs1 imm) s = .refused (.dataOutOfRange (addressOf s rs1 imm)))

/-- R121, with the default `DMEM_ADDRESSING` = byte and `DMEM_MISALIGNED` = refuse; the other values of these two parameters are in
`SwUnderTheOtherDataMemories`. -/
def Obligations.SwStoresTheAlignedWord : Prop :=
  (∀ (cfg : Config) (iw : Word), iw.extractLsb' 26 6 = 0x2b#6 →
    decode cfg iw = .ok (.sw (iw.extractLsb' 21 5).toFin (iw.extractLsb' 16 5).toFin (iw.extractLsb' 0 16))) ∧
  ∀ (rs1 rs2 : Reg) (imm : BitVec 16) (s : State), s.cfg.dmemAddressing = .byte → s.cfg.dmemMisaligned = .refuse →
    if (addressOf s rs1 imm).toNat % 4 ≠ 0 then
      exec (.sw rs1 rs2 imm) s = .refused (.misalignedData (addressOf s rs1 imm))
    else if s.cfg.dmemBase ≤ (addressOf s rs1 imm).toNat ∧
        (addressOf s rs1 imm).toNat + 3 < s.cfg.dmemBase + s.cfg.dmemSize then
      ∃ t, exec (.sw rs1 rs2 imm) s = .next t ∧
        StoresWord s t s.cfg.byteOrder (addressOf s rs1 imm).toNat (s.reg rs2)
    else exec (.sw rs1 rs2 imm) s = .refused (.dataOutOfRange (addressOf s rs1 imm))

/-- `sw` under the parameter values the spec keeps beside the defaults, as `LwUnderTheOtherDataMemories` (log 13, log 14). -/
def Obligations.SwUnderTheOtherDataMemories : Prop :=
  ∀ (rs1 rs2 : Reg) (imm : BitVec 16) (s : State),
    (s.cfg.dmemAddressing = .word →
      if s.cfg.dmemBase ≤ (addressOf s rs1 imm).toNat ∧
          (addressOf s rs1 imm).toNat + 3 < s.cfg.dmemBase + s.cfg.dmemSize then
        ∃ t, exec (.sw rs1 rs2 imm) s = .next t ∧ StoresWord s t .big (4 * (addressOf s rs1 imm).toNat) (s.reg rs2)
      else exec (.sw rs1 rs2 imm) s = .refused (.dataOutOfRange (addressOf s rs1 imm))) ∧
    (s.cfg.dmemAddressing = .byte → s.cfg.dmemMisaligned = .ignoreLowBits →
      if s.cfg.dmemBase ≤ (addressOf s rs1 imm &&& 0xFFFFFFFC).toNat ∧
          (addressOf s rs1 imm &&& 0xFFFFFFFC).toNat + 3 < s.cfg.dmemBase + s.cfg.dmemSize then
        ∃ t, exec (.sw rs1 rs2 imm) s = .next t ∧
          StoresWord s t s.cfg.byteOrder (addressOf s rs1 imm &&& 0xFFFFFFFC).toNat (s.reg rs2)
      else exec (.sw rs1 rs2 imm) s = .refused (.dataOutOfRange (addressOf s rs1 imm))) ∧
    (s.cfg.dmemAddressing = .byte → s.cfg.dmemMisaligned = .split →
      if s.cfg.dmemBase ≤ (addressOf s rs1 imm).toNat ∧
          (addressOf s rs1 imm).toNat + 3 < s.cfg.dmemBase + s.cfg.dmemSize then
        ∃ t, exec (.sw rs1 rs2 imm) s = .next t ∧
          StoresWord s t s.cfg.byteOrder (addressOf s rs1 imm).toNat (s.reg rs2)
      else exec (.sw rs1 rs2 imm) s = .refused (.dataOutOfRange (addressOf s rs1 imm)))

/-! ### R-type instructions -/

/-- R130. -/
def Obligations.AddAddsModuloTwoToThe32 : Prop :=
  RWordsDecode 0x20 .add ∧
  ∀ (rd rs1 rs2 : Reg) (s : State), ∃ t, exec (.add rd rs1 rs2) s = .next t ∧
    WritesReg s t rd (BitVec.ofNat 32 ((s.reg rs1).toNat + (s.reg rs2).toNat))

/-- R131. -/
def Obligations.SubSubtractsModuloTwoToThe32 : Prop :=
  RWordsDecode 0x22 .sub ∧
  ∀ (rd rs1 rs2 : Reg) (s : State), ∃ t, exec (.sub rd rs1 rs2) s = .next t ∧
    WritesReg s t rd (BitVec.ofInt 32 ((s.reg rs1).toNat - (s.reg rs2).toNat))

/-- R132. -/
def Obligations.AndIsBitwise : Prop :=
  RWordsDecode 0x24 .and ∧
  ∀ (rd rs1 rs2 : Reg) (s : State), ∃ t, exec (.and rd rs1 rs2) s = .next t ∧
    WritesReg s t rd (BitVec.ofNat 32 ((s.reg rs1).toNat &&& (s.reg rs2).toNat))

/-- R133. -/
def Obligations.OrIsBitwise : Prop :=
  RWordsDecode 0x25 .or ∧
  ∀ (rd rs1 rs2 : Reg) (s : State), ∃ t, exec (.or rd rs1 rs2) s = .next t ∧
    WritesReg s t rd (BitVec.ofNat 32 ((s.reg rs1).toNat ||| (s.reg rs2).toNat))

/-- R134. -/
def Obligations.XorIsBitwise : Prop :=
  RWordsDecode 0x26 .xor ∧
  ∀ (rd rs1 rs2 : Reg) (s : State), ∃ t, exec (.xor rd rs1 rs2) s = .next t ∧
    WritesReg s t rd (BitVec.ofNat 32 ((s.reg rs1).toNat ^^^ (s.reg rs2).toNat))

/-- R135, the count by R142: the low `SHIFT_AMOUNT_BITS` bits of the unsigned register, not bounded by 31. -/
def Obligations.SllMultipliesByPowerOfTwo : Prop :=
  RWordsDecode 0x04 .sll ∧
  ∀ (rd rs1 rs2 : Reg) (s : State), ∃ t, exec (.sll rd rs1 rs2) s = .next t ∧
    WritesReg s t rd (BitVec.ofNat 32 ((s.reg rs1).toNat * 2 ^ ((s.reg rs2).toNat % 2 ^ s.cfg.shiftAmountBits)))

/-- R136, the count by R142. -/
def Obligations.SrlDividesUnsigned : Prop :=
  RWordsDecode 0x06 .srl ∧
  ∀ (rd rs1 rs2 : Reg) (s : State), ∃ t, exec (.srl rd rs1 rs2) s = .next t ∧
    WritesReg s t rd (BitVec.ofNat 32 ((s.reg rs1).toNat / 2 ^ ((s.reg rs2).toNat % 2 ^ s.cfg.shiftAmountBits)))

/-- R137, the count by R142, the encoding by the parameter `SRA_FUNC`, where `ADMIT_SRA` holds and the code collides with no row. -/
def Obligations.SraDividesSignedRoundingDown : Prop :=
  (∀ (cfg : Config) (iw : Word), cfg.wf = true → cfg.admitSra = true → iw.extractLsb' 26 6 = 0 →
    iw.extractLsb' 0 11 = cfg.sraFunc →
    decode cfg iw = .ok (.sra (iw.extractLsb' 11 5).toFin (iw.extractLsb' 21 5).toFin (iw.extractLsb' 16 5).toFin)) ∧
  ∀ (rd rs1 rs2 : Reg) (s : State), ∃ t, exec (.sra rd rs1 rs2) s = .next t ∧
    WritesReg s t rd (BitVec.ofInt 32 ((s.reg rs1).toInt.fdiv (2 ^ ((s.reg rs2).toNat % 2 ^ s.cfg.shiftAmountBits))))

/-- R138. -/
def Obligations.SneComparesAllBits : Prop :=
  RWordsDecode 0x29 .sne ∧
  ∀ (rd rs1 rs2 : Reg) (s : State), ∃ t, exec (.sne rd rs1 rs2) s = .next t ∧
    WritesReg s t rd (if (s.reg rs1).toNat ≠ (s.reg rs2).toNat then 1 else 0)

/-- R139: an exact signed comparison. -/
def Obligations.SleComparesSigned : Prop :=
  RWordsDecode 0x2c .sle ∧
  ∀ (rd rs1 rs2 : Reg) (s : State), ∃ t, exec (.sle rd rs1 rs2) s = .next t ∧
    WritesReg s t rd (if (s.reg rs1).toInt ≤ (s.reg rs2).toInt then 1 else 0)

/-- R140: an exact signed comparison. -/
def Obligations.SgeComparesSigned : Prop :=
  RWordsDecode 0x2d .sge ∧
  ∀ (rd rs1 rs2 : Reg) (s : State), ∃ t, exec (.sge rd rs1 rs2) s = .next t ∧
    WritesReg s t rd (if (s.reg rs2).toInt ≤ (s.reg rs1).toInt then 1 else 0)

/-! ### Branches, jumps, `nop` -/

/-- R150, the target base by the parameter `TARGET_BASE_OFFSET` (default 4, R155). -/
def Obligations.BeqzBranchesOnZero : Prop :=
  BranchWordsDecode 0x04 .beqz ∧
  ∀ (rs1 : Reg) (off : BitVec 16) (s : State), ∃ t, exec (.beqz rs1 off) s = .next t ∧
    OnlySetsPc s t (if (s.reg rs1).toNat = 0 then targetOf s off.toInt else nextWord s)

/-- R151, the target base by the parameter `TARGET_BASE_OFFSET` (default 4, R155). -/
def Obligations.BnezBranchesOnNonzero : Prop :=
  BranchWordsDecode 0x05 .bnez ∧
  ∀ (rs1 : Reg) (off : BitVec 16) (s : State), ∃ t, exec (.bnez rs1 off) s = .next t ∧
    OnlySetsPc s t (if (s.reg rs1).toNat = 0 then nextWord s else targetOf s off.toInt)

/-- R152, the target base by the parameter `TARGET_BASE_OFFSET` (default 4, R155). -/
def Obligations.JJumpsRelative : Prop :=
  JWordsDecode 0x02 .j ∧
  ∀ (off : BitVec 26) (s : State), ∃ t, exec (.j off) s = .next t ∧ OnlySetsPc s t (targetOf s off.toInt)

/-- R153, by the parameters `TARGET_BASE_OFFSET` and `LINK_OFFSET` (defaults 4, R155). -/
def Obligations.JalLinksAndJumps : Prop :=
  JWordsDecode 0x03 .jal ∧
  ∀ (off : BitVec 26) (s : State), ∃ t, exec (.jal off) s = .next t ∧
    RegsWith s t 31 (BitVec.ofNat 32 (s.pc.toNat + s.cfg.linkOffset.toNat)) ∧
    t.pc = targetOf s off.toInt ∧ SameData s t ∧ SameLaunch s t

/-- R170: every word 0x54000000 to 0x57FFFFFF, and nothing changes but `pc`. -/
def Obligations.NopOnlyAdvances : Prop :=
  (∀ (cfg : Config) (iw : Word), 0x54000000 ≤ iw.toNat → iw.toNat ≤ 0x57FFFFFF → decode cfg iw = .ok .nop) ∧
  (∀ cfg : Config, encode cfg .nop = 0x54000000) ∧
  ∀ s : State, ∃ t, exec .nop s = .next t ∧ OnlySetsPc s t (nextWord s)

/-! ### Fetch and the step -/

/-- R26: a step at a misaligned `pc` is refused; the branch or jump that computed it completes, whatever its target. -/
def Obligations.MisalignedFetchIsRefusedAtTheFetch : Prop :=
  (∀ s : State, s.pc.toNat % 4 ≠ 0 → step s = .refused (.misalignedFetch s.pc)) ∧
  (∀ (i : Instr) (s : State), (offsetOf i).isSome = true → ∃ t, exec i s = .next t) ∧
  (∀ (i : Instr) (s t : State), exec i s = .next t → t.pc.toNat % 4 ≠ 0 → step t = .refused (.misalignedFetch t.pc))

/-- A fetch outside the instruction memory, or from a word of which the launch did not fill every byte, is refused (20_memory.md section
1). That one unfilled byte is enough for a word to count as one the launch did not fill is the model's choice (log 6). -/
def Obligations.FetchOutOfRangeIsRefused : Prop :=
  ∀ s : State, s.pc.toNat % 4 = 0 → s.cfg.haltPc ≠ some s.pc →
    (s.pc.toNat < s.cfg.imemBase ∨ s.cfg.imemBase + s.cfg.imemSize ≤ s.pc.toNat + 3 ∨
      ∃ k, k < 4 ∧ s.imem.byte? (s.pc.toNat + k) = none) →
    step s = .refused (.fetchOutOfRange s.pc)

/-- The end of a run (70_reset_and_hazards.md section 2): at `HALT_PC` nothing is fetched, and the state is the final state. That the
model's step then answers this same state is the model's choice (log 7). -/
def Obligations.RunIsOverAtHaltPc : Prop :=
  ∀ (s : State) (n : Nat), s.runOver → Host.Core.run Sys2Proof.core n s = .next s

/-- When the four bytes at `pc` decode to an instruction, the step is that instruction's `exec`, with what `State.settle` adds around it,
which is nothing with the default `BRANCH_DELAY_SLOTS` = 0. -/
def Obligations.StepRunsTheDecodedInstruction : Prop :=
  ∀ (s : State) (b0 b1 b2 b3 : Byte) (i : Instr), s.pc.toNat % 4 = 0 → s.cfg.haltPc ≠ some s.pc →
    s.cfg.imemBase ≤ s.pc.toNat → s.pc.toNat + 3 < s.cfg.imemBase + s.cfg.imemSize →
    s.imem.byte? s.pc.toNat = some b0 → s.imem.byte? (s.pc.toNat + 1) = some b1 →
    s.imem.byte? (s.pc.toNat + 2) = some b2 → s.imem.byte? (s.pc.toNat + 3) = some b3 →
    decode s.cfg (match s.cfg.byteOrder with
      | .big => b0 ++ b1 ++ b2 ++ b3
      | .little => b3 ++ b2 ++ b1 ++ b0) = .ok i →
    step s = onNext (s.settle i) (exec i s) ∧ (s.cfg.branchDelaySlots = 0 → step s = exec i s)

/-- With one delay slot (00_scope.md R5, `BRANCH_DELAY_SLOTS` = 1) and nothing owed, a taken branch or jump to a target is followed by the
next word (`A + 4` by default), and, where that instruction does not transfer itself, `pc` is then the target. A queue of owed transfers is
the model's way to say this (log 16). -/
def Obligations.OneDelaySlotPostponesTheTransfer : Prop :=
  ∀ (s t u : State) (i k : Instr), s.cfg.branchDelaySlots = 1 → s.pending = [none] →
    s.fetchNext = .instr i → (offsetOf i).isSome = true → s.transfers i = true → step s = .next t →
    t.fetchNext = .instr k → t.transfers k = false → step t = .next u →
    t.pc = nextWord s ∧ (offsetOf i).map (targetOf s) = some u.pc ∧ u.pending = [none]

/-- A word placed at an aligned `pc` is what the next step runs (the host's `withFetchWord`; log 6). -/
def Obligations.PlacedWordRunsNext : Prop :=
  ∀ (s : State) (w : Nat) (i : Instr), s.pc.toNat % 4 = 0 → s.cfg.branchDelaySlots = 0 →
    decode s.cfg (BitVec.ofNat 32 w) = .ok i →
    step (s.withFetchWord 32 w) = exec i (s.withFetchWord 32 w)

/-! ### Reset, launch and invariants -/

/-- R200: what reset leaves, for every choice of the parameters, the registers and the launch's memories. -/
def Obligations.LaunchSetsTheResetState : Prop :=
  ∀ (cfg : Config) (regs : Vector Word 32) (program : List Word) (image : Memory),
    (State.launch cfg regs program image).pc = cfg.resetPc ∧
    (cfg.r0Hardwired = true → (State.launch cfg regs program image).reg 0 = 0) ∧
    (∀ r, r ≠ 0 ∨ cfg.r0Hardwired = false → (State.launch cfg regs program image).reg r = regs[r.val]) ∧
    (∀ a, (State.launch cfg regs program image).dmem.byte? a = image.byte? a) ∧
    (State.launch cfg regs program image).imem = Memory.ofWords cfg.byteOrder cfg.imemBase program

/-- The launch's program, 70_reset_and_hazards.md section 1: the words stand at `IMEM_BASE`, `IMEM_BASE + 4`, ..., and are fetched whole in
either byte order; no fetch answers a word that reaches below the first or above the last. Where `IMEM_BASE` is a multiple of 4, a fetch at
a multiple of 4 answers the program's word that stands there, and none where none stands. (Where it is not, a fetch inside the program
answers the four bytes at its address, by the model's choice, log 26.) -/
def Obligations.LaunchedProgramIsFetched : Prop :=
  ∀ (cfg : Config) (regs : Vector Word 32) (program : List Word) (image : Memory),
    4 * program.length ≤ cfg.imemSize →
    (∀ (k : Nat) (h : k < program.length),
      (State.launch cfg regs program image).ifetch? (cfg.imemBase + 4 * k) = some program[k]) ∧
    (∀ a, a < cfg.imemBase ∨ cfg.imemBase + 4 * program.length < a + 4 →
      (State.launch cfg regs program image).ifetch? a = none) ∧
    (cfg.imemBase % 4 = 0 → ∀ a, a % 4 = 0 →
      (State.launch cfg regs program image).ifetch? a =
        if a < cfg.imemBase then none else program[(a - cfg.imemBase) / 4]?)

/-- The state `State.reset` names: `RESET_PC` = 0 and register 0 reading 0 are the spec's defaults (10_state.md section 5); 0xDEADBEEF in
the other registers (log 4) and empty memories with no `HALT_PC` (log 3, log 6) are the model's choice. Its first step is refused, since
no program is loaded. -/
def Obligations.ResetHoldsNoProgram : Prop :=
  State.reset.pc = 0 ∧ State.reset.reg 0 = 0 ∧ (∀ r : Reg, r ≠ 0 → State.reset.reg r = 0xDEADBEEF) ∧
    (∀ a, State.reset.dmem.byte? a = none) ∧ (∀ a, State.reset.imem.byte? a = none) ∧ State.reset.cfg.haltPc = none ∧
    step State.reset = .refused (.fetchOutOfRange 0)

/-- The invariant holds at reset. -/
def Obligations.ResetMeetsTheInvariant : Prop := State.reset.Inv

/-- The invariant holds at every launch with allowed parameters and a data image in canonical form. -/
def Obligations.LaunchMeetsTheInvariant : Prop :=
  ∀ (cfg : Config) (regs : Vector Word 32) (program : List Word) (image : Memory),
    cfg.wf = true → image.wf → (State.launch cfg regs program image).Inv

/-- Every step keeps the invariant. -/
def Obligations.StepKeepsTheInvariant : Prop :=
  ∀ s t : State, s.Inv → step s = .next t → t.Inv

/-- A program is a constant of the run (20_memory.md section 8). So are the parameters, which the model carries in the state by its own
choice (log 2; 00_scope.md R14 calls them parameters of the step). -/
def Obligations.ProgramIsAConstantOfTheRun : Prop :=
  ∀ (n : Nat) (s t : State), Host.Core.run Sys2Proof.core n s = .next t → t.imem = s.imem ∧ t.cfg = s.cfg

/-! ### Rules over all instructions -/

/-- R22: register 0 reads 0 and a write to it changes nothing when `R0_HARDWIRED`, and is an ordinary register otherwise; an
instruction whose destination is a hardwired register 0, where it is not refused, changes nothing but `pc`; a load to register 0 is
refused exactly where a load to any other register is. -/
def Obligations.RegisterZeroIsHardwired : Prop :=
  (∀ s : State, s.cfg.r0Hardwired = true → s.reg 0 = 0 ∧ ∀ v, s.setReg 0 v = s) ∧
  (∀ (s : State) (v : Word), s.cfg.r0Hardwired = false → (s.setReg 0 v).reg 0 = v) ∧
  (∀ (i : Instr) (s t : State), s.cfg.r0Hardwired = true → destReg i = some 0 → exec i s = .next t →
    t = { s with pc := nextWord s }) ∧
  (∀ (rd rs1 : Reg) (imm : BitVec 16) (s : State) (q : Refusal),
    exec (.lw 0 rs1 imm) s = .refused q ↔ exec (.lw rd rs1 imm) s = .refused q)

/-- R24: an instruction writes no register but its destination, and what it does depends on no register it does not read. -/
def Obligations.RegistersReadAndWritten : Prop :=
  (∀ (i : Instr) (s t : State), exec i s = .next t → ∀ r, destReg i ≠ some r → t.reg r = s.reg r) ∧
  (∀ (i : Instr) (s s' : State), s'.pc = s.pc → s'.dmem = s.dmem → s'.imem = s.imem → s'.pending = s.pending → s'.cfg = s.cfg →
    (∀ r ∈ readSet i, s'.reg r = s.reg r) →
    match exec i s, exec i s' with
    | .next t, .next t' => t'.pc = t.pc ∧ t'.dmem = t.dmem ∧ (∀ r, destReg i = some r → t'.reg r = t.reg r)
    | .refused q, .refused q' => q' = q
    | _, _ => False)

/-- R181: the complete list of refusals, each with its situation and its identifying value, in the default data memory
(`DMEM_ADDRESSING` = byte, `DMEM_MISALIGNED` = refuse); the others are in `RefusalsUnderTheOtherDataMemories`. -/
def Obligations.RefusalsAreTheListedOnes : Prop :=
  ∀ (s : State) (q : Refusal), s.cfg.dmemAddressing = .byte → s.cfg.dmemMisaligned = .refuse → step s = .refused q →
    refusedAtFetch s q ∨
    ∃ ea, accesses s ea ∧
      ((q = .misalignedData ea ∧ ea.toNat % 4 ≠ 0) ∨
        (q = .dataOutOfRange ea ∧ ea.toNat % 4 = 0 ∧ outsideData s ea.toNat))

/-- A load that follows a store to the same effective address returns the stored value, under every choice of the parameters
(20_memory.md sections 2 and 6). -/
def Obligations.LoadAfterStoreReturnsTheStoredWord : Prop :=
  ∀ (rs1 rs2 rd rb : Reg) (imm imm' : BitVec 16) (s t : State), exec (.sw rs1 rs2 imm) s = .next t →
    addressOf t rb imm' = addressOf s rs1 imm →
    ∃ u, exec (.lw rd rb imm') t = .next u ∧ WritesReg t u rd (s.reg rs2)

/-- A store leaves every other aligned word as it was: a load from another effective address returns what it returned before
(20_memory.md sections 2 and 6), in the default data memory. -/
def Obligations.StoreLeavesOtherWordsAlone : Prop :=
  ∀ (rs1 rs2 rd rb : Reg) (imm imm' : BitVec 16) (s t u : State),
    s.cfg.dmemAddressing = .byte → s.cfg.dmemMisaligned = .refuse →
    exec (.sw rs1 rs2 imm) s = .next t → addressOf s rb imm' ≠ addressOf s rs1 imm → exec (.lw rd rb imm') s = .next u →
    ∃ u', exec (.lw rd rb imm') t = .next u' ∧ ∀ r, u'.reg r = u.reg r

/-- Every instruction goes on at the next word or at the target its offset names: no target comes from a register
(43_control_transfer.md section 4). -/
def Obligations.TargetsAreConstantsOfTheProgram : Prop :=
  ∀ (i : Instr) (s t : State), exec i s = .next t →
    t.pc = nextWord s ∨ ∃ off, offsetOf i = some off ∧ t.pc = targetOf s off

/-- `pc` stays a multiple of 4 as long as offsets are multiples of 4 (43_control_transfer.md section 1), `PC_STEP` and
`TARGET_BASE_OFFSET` being multiples of 4 as their defaults are. -/
def Obligations.AlignedOffsetsKeepPcAligned : Prop :=
  ∀ (i : Instr) (s t : State), s.pc.toNat % 4 = 0 → s.cfg.pcStep.toNat % 4 = 0 → s.cfg.targetBaseOffset.toNat % 4 = 0 →
    (∀ off, offsetOf i = some off → off % 4 = 0) → exec i s = .next t → t.pc.toNat % 4 = 0

/-- The parking loop of 70_reset_and_hazards.md section 2: the word 0x0BFFFFFC jumps to itself for ever and changes no state. -/
def Obligations.ParkingLoopChangesNothing : Prop :=
  ∀ (s : State) (n : Nat), s.pc.toNat % 4 = 0 → s.cfg.targetBaseOffset = 4 → s.cfg.branchDelaySlots = 0 →
    s.ifetch? s.pc.toNat = some 0x0BFFFFFC → Host.Core.run Sys2Proof.core n s = .next s

/-! ### Assembly -/

/-- R87: a literal outside the range of its field is rejected, and one inside it is encoded so that the field reads as that number. -/
def Obligations.LiteralsOutOfRangeAreRejected : Prop :=
  (∀ n : Int, (signed16? n = none ↔ n < -32768 ∨ 32767 < n) ∧ ∀ v, signed16? n = some v → v.toInt = n) ∧
  (∀ n : Int, (unsigned16? n = none ↔ n < 0 ∨ 65535 < n) ∧ ∀ v, unsigned16? n = some v → (v.toNat : Int) = n) ∧
  (∀ n : Int, (signed26? n = none ↔ n < -33554432 ∨ 33554431 < n) ∧ ∀ v, signed26? n = some v → v.toInt = n)

/-- 30_encoding.md section 5: a line that assembles, at its address, to a branch or jump makes one that goes, when taken, to the target
written in the line (a number of either sign, or a symbol whose address the caller gives, log 17), modulo 2^32, with the default
`TARGET_BASE_OFFSET`; and the offset the assembler puts in the field (log 17) leads to its target whatever line it came from. -/
def Obligations.AssembledTransfersReachTheirTarget : Prop :=
  (∀ (s : State) (symbols : List (String × Int)) (line : String) (i : Instr), s.cfg.targetBaseOffset = 4 →
    assembleLine symbols s.pc.toNat line = some i → s.transfers i = true →
    ∃ (operand : List Char) (target : Int) (t : State), (lineOperands line).getLast? = some operand ∧
      targetOf? symbols operand = some target ∧ exec i s = .next t ∧ t.pc = BitVec.ofInt 32 target) ∧
  ∀ (s : State) (target : Int), s.cfg.targetBaseOffset = 4 →
    (∀ (rs1 : Reg) (off : BitVec 16) (t : State), signed16? (targetOffset s.pc.toNat target) = some off → s.reg rs1 = 0 →
      exec (.beqz rs1 off) s = .next t → t.pc = BitVec.ofInt 32 target) ∧
    (∀ (rs1 : Reg) (off : BitVec 16) (t : State), signed16? (targetOffset s.pc.toNat target) = some off → s.reg rs1 ≠ 0 →
      exec (.bnez rs1 off) s = .next t → t.pc = BitVec.ofInt 32 target) ∧
    (∀ (off : BitVec 26) (t : State), signed26? (targetOffset s.pc.toNat target) = some off →
      (exec (.j off) s = .next t ∨ exec (.jal off) s = .next t) → t.pc = BitVec.ofInt 32 target)

/-! ### The other data memories -/

/-- The refusals under the parameter values the spec keeps beside the defaults: no data access is misaligned, and one is out of range
where the address it uses is. That the address tested is `EA` in a word-indexed memory (log 13), `EA` with bits 1:0 cleared under
`ignore_low_bits` (log 14) and `EA` without wrap under `split` (log 15) is the model's choice. -/
def Obligations.RefusalsUnderTheOtherDataMemories : Prop :=
  ∀ (s : State) (q : Refusal), ¬ (s.cfg.dmemAddressing = .byte ∧ s.cfg.dmemMisaligned = .refuse) → step s = .refused q →
    refusedAtFetch s q ∨
    ∃ ea, accesses s ea ∧ q = .dataOutOfRange ea ∧
      (if s.cfg.dmemAddressing = .byte ∧ s.cfg.dmemMisaligned = .ignoreLowBits then outsideData s (ea &&& 0xFFFFFFFC).toNat
        else outsideData s ea.toNat)
end

