-- ==== Sys2Proof/Laws/Assembly.lean ====
section
/-! SUPPORT. What a line that assembles is made of (30_encoding.md R85 to R88): its form is one of the table's, and each form's operands make the
instruction's fields. -/

namespace Sys2Proof

variable {symbols : List (String × Int)} {A : Nat} {operands : List (List Char)} {i : Instr}

/-- A line that assembles has a mnemonic of the table, whose form its operands fit. -/
theorem assembleLine_some {line : String} (h : assembleLine symbols A line = some i) :
    ∃ p ∈ asmForms, p.1.toList = lineName line ∧ p.2.build symbols A (lineOperands line) = some i := by
  obtain ⟨f, hf, hi⟩ := Option.bind_eq_some_iff.mp h
  obtain ⟨p, hp, rfl⟩ := Option.map_eq_some_iff.mp hf
  exact ⟨p, List.mem_of_find?_eq_some hp, by simpa using List.find?_some hp, hi⟩

/-- A branch is made of a register and a target whose offset fits 16 bits. -/
theorem AsmForm.build_branch {mk : Reg → BitVec 16 → Instr} (h : (AsmForm.branch mk).build symbols A operands = some i) :
    ∃ register target rs1 n off, operands = [register, target] ∧ regOf? register = some rs1 ∧ targetOf? symbols target = some n ∧
      signed16? (targetOffset A n) = some off ∧ i = mk rs1 off := by
  unfold AsmForm.build at h
  split at h <;> simp_all [Option.bind_eq_some_iff]
  grind

/-- A jump is made of a target whose offset fits 26 bits. -/
theorem AsmForm.build_jump {mk : BitVec 26 → Instr} (h : (AsmForm.jump mk).build symbols A operands = some i) :
    ∃ target n off, operands = [target] ∧ targetOf? symbols target = some n ∧ signed26? (targetOffset A n) = some off ∧ i = mk off := by
  unfold AsmForm.build at h
  split at h <;> simp_all [Option.bind_eq_some_iff]
  grind

/-- The forms with two registers and an immediate make their instruction. -/
theorem AsmForm.build_immediate {f : AsmForm} {mk : Reg → Reg → BitVec 16 → Instr}
    (hf : f = .aluSigned mk ∨ f = .aluUnsigned mk ∨ f = .load mk ∨ f = .store mk) (h : f.build symbols A operands = some i) :
    ∃ a b imm, i = mk a b imm := by
  unfold AsmForm.build at h
  rcases hf with rfl | rfl | rfl | rfl <;> split at h <;> simp_all [Option.bind_eq_some_iff] <;> grind

/-- The form with three registers makes its instruction. -/
theorem AsmForm.build_register {mk : Reg → Reg → Reg → Instr} (h : (AsmForm.register mk).build symbols A operands = some i) :
    ∃ rd rs1 rs2, i = mk rd rs1 rs2 := by
  unfold AsmForm.build at h
  split at h <;> simp_all [Option.bind_eq_some_iff]
  grind

/-- The form without operands makes its instruction. -/
theorem AsmForm.build_plain {k : Instr} (h : (AsmForm.plain k).build symbols A operands = some i) : i = k := by
  unfold AsmForm.build at h
  split at h <;> simp_all

end Sys2Proof
end

