-- ==== Sys2Proof/Laws/Decode.lean ====
section
/-! SUPPORT. What the fields of an encoded word are (30_encoding.md R90), and what the two maps of the decoder answer. -/

namespace Sys2Proof

/-! ### A slice of a concatenation -/

theorem extract_high {m n : Nat} (hi : BitVec m) (lo : BitVec n) {k : Nat} (j w : Nat) (h : k = n + j) :
    (hi ++ lo).extractLsb' k w = hi.extractLsb' j w := by
  subst h
  refine BitVec.eq_of_getLsbD_eq fun i hi' => ?_
  simp only [BitVec.getLsbD_append, BitVec.getLsbD_extractLsb']
  simp [show ¬ n + j + i < n by omega, show n + j + i - n = j + i by omega]

theorem extract_low {m n : Nat} (hi : BitVec m) (lo : BitVec n) (j w : Nat) (h : j + w ≤ n) :
    (hi ++ lo).extractLsb' j w = lo.extractLsb' j w := by
  refine BitVec.eq_of_getLsbD_eq fun i hi' => ?_
  simp only [BitVec.getLsbD_append, BitVec.getLsbD_extractLsb']
  simp [show j + i < n by omega]

theorem extract_all {n : Nat} (x : BitVec n) : x.extractLsb' 0 n = x := by
  refine BitVec.eq_of_getLsbD_eq fun i hi' => ?_
  simp [hi']

/-! ### The fields of an encoded word -/

section
variable (op : BitVec 6) (func : BitVec 11) (rs1 rs2 rd : Reg) (imm : BitVec 16) (off : BitVec 26)

@[simp] theorem opcodeField_encodeI : opcodeField (encodeI op rs1 rd imm) = op := by
  unfold opcodeField encodeI
  rw [extract_high _ _ 10 6 rfl, extract_high _ _ 5 6 rfl, extract_high _ _ 0 6 rfl, extract_all]

@[simp] theorem rs1Field_encodeI : rs1Field (encodeI op rs1 rd imm) = rs1 := by
  unfold rs1Field encodeI
  rw [extract_high _ _ 5 5 rfl, extract_high _ _ 0 5 rfl, extract_low _ _ 0 5 (by decide), extract_all]
  rfl

@[simp] theorem rs2Field_encodeI : rs2Field (encodeI op rs1 rd imm) = rd := by
  unfold rs2Field encodeI
  rw [extract_high _ _ 0 5 rfl, extract_low _ _ 0 5 (by decide), extract_all]
  rfl

@[simp] theorem imm16Field_encodeI : imm16Field (encodeI op rs1 rd imm) = imm := by
  unfold imm16Field encodeI
  rw [extract_low _ _ 0 16 (by decide), extract_all]

@[simp] theorem opcodeField_encodeR : opcodeField (encodeR func rs1 rs2 rd) = 0 := by
  unfold opcodeField encodeR
  rw [extract_high _ _ 15 6 rfl, extract_high _ _ 10 6 rfl, extract_high _ _ 5 6 rfl, extract_high _ _ 0 6 rfl, extract_all]

@[simp] theorem rs1Field_encodeR : rs1Field (encodeR func rs1 rs2 rd) = rs1 := by
  unfold rs1Field encodeR
  rw [extract_high _ _ 10 5 rfl, extract_high _ _ 5 5 rfl, extract_high _ _ 0 5 rfl, extract_low _ _ 0 5 (by decide), extract_all]
  rfl

@[simp] theorem rs2Field_encodeR : rs2Field (encodeR func rs1 rs2 rd) = rs2 := by
  unfold rs2Field encodeR
  rw [extract_high _ _ 5 5 rfl, extract_high _ _ 0 5 rfl, extract_low _ _ 0 5 (by decide), extract_all]
  rfl

@[simp] theorem rs3Field_encodeR : rs3Field (encodeR func rs1 rs2 rd) = rd := by
  unfold rs3Field encodeR
  rw [extract_high _ _ 0 5 rfl, extract_low _ _ 0 5 (by decide), extract_all]
  rfl

@[simp] theorem funcField_encodeR : funcField (encodeR func rs1 rs2 rd) = func := by
  unfold funcField encodeR
  rw [extract_low _ _ 0 11 (by decide), extract_all]

@[simp] theorem opcodeField_encodeJ : opcodeField (encodeJ op off) = op := by
  unfold opcodeField encodeJ
  rw [extract_high _ _ 0 6 rfl, extract_all]

@[simp] theorem imm26Field_encodeJ : imm26Field (encodeJ op off) = off := by
  unfold imm26Field encodeJ
  rw [extract_low _ _ 0 26 (by decide), extract_all]

end

/-! ### A word is its fields -/

theorem extract_append_extract (w : Word) {a m n : Nat} :
    w.extractLsb' (a + n) m ++ w.extractLsb' a n = w.extractLsb' a (m + n) := by
  refine BitVec.eq_of_getLsbD_eq fun k hk => ?_
  simp only [BitVec.getLsbD_append, BitVec.getLsbD_extractLsb']
  by_cases h : k < n
  · simp [h, hk]
  · simp [h, hk, show k - n < m by omega, show a + n + (k - n) = a + k by omega]

theorem regBits_toFin (b : BitVec 5) : regBits b.toFin = b := rfl

theorem encodeI_fields (iw : Word) :
    encodeI (opcodeField iw) (rs1Field iw) (rs2Field iw) (imm16Field iw) = iw := by
  unfold encodeI opcodeField rs1Field rs2Field imm16Field
  rw [regBits_toFin, regBits_toFin, extract_append_extract (a := 21) (n := 5), extract_append_extract (a := 16) (n := 5),
    extract_append_extract (a := 0) (n := 16)]
  exact extract_all iw

theorem encodeR_fields (iw : Word) (h : opcodeField iw = 0) :
    encodeR (funcField iw) (rs1Field iw) (rs2Field iw) (rs3Field iw) = iw := by
  unfold encodeR rs1Field rs2Field rs3Field funcField
  rw [← h]
  unfold opcodeField
  rw [regBits_toFin, regBits_toFin, regBits_toFin, extract_append_extract (a := 21) (n := 5),
    extract_append_extract (a := 16) (n := 5), extract_append_extract (a := 11) (n := 5),
    extract_append_extract (a := 0) (n := 11)]
  exact extract_all iw

theorem encodeJ_fields (iw : Word) : encodeJ (opcodeField iw) (imm26Field iw) = iw := by
  unfold encodeJ opcodeField imm26Field
  rw [extract_append_extract (a := 0) (n := 26)]
  exact extract_all iw

/-! ### The maps of the decoder -/

/-- A row of the OPCODE map decides its words (30_encoding.md R71). -/
theorem decode_of_opcode {cfg : Config} {iw : Word} {row : BitVec 6 × (Word → Instr)} (h0 : opcodeField iw ≠ 0)
    (h : opcodeMap.find? (fun r => r.1 == opcodeField iw) = some row) : decode cfg iw = .ok (row.2 iw) := by
  rw [decode, if_neg h0, decodeOpcode, h]

/-- A row of the FUNC map decides its words (30_encoding.md R72). -/
theorem decode_of_func {cfg : Config} {iw : Word} {row : BitVec 11 × (Word → Instr)} (h0 : opcodeField iw = 0)
    (h : funcMap.find? (fun r => funcMatches cfg r.1 (funcField iw)) = some row) : decode cfg iw = .ok (row.2 iw) := by
  simp [decode, h0, decodeFunc, h]

/-- FUNC values below 64 are told apart by every `FUNC_MATCH_BITS` of 6 or more (30_encoding.md R72). -/
theorem funcMatches_small {cfg : Config} (hk : 6 ≤ cfg.funcMatchBits) {a b : BitVec 11} (ha : a.toNat < 64) (hb : b.toNat < 64) :
    funcMatches cfg a b = (a == b) := by
  have hp : 64 ≤ 2 ^ cfg.funcMatchBits := by
    calc 64 = 2 ^ 6 := rfl
      _ ≤ 2 ^ cfg.funcMatchBits := Nat.pow_le_pow_right (by decide) hk
  rw [funcMatches, Nat.mod_eq_of_lt (lt_of_lt_of_le ha hp), Nat.mod_eq_of_lt (lt_of_lt_of_le hb hp)]
  by_cases h : a = b
  · simp [h]
  · have hn : a.toNat ≠ b.toNat := fun e => h (BitVec.eq_of_toNat_eq e)
    simp [h, hn]

/-- With all 11 bits compared a row matches its own FUNC value alone (30_encoding.md R72). -/
theorem funcMatches_eleven {cfg : Config} (hk : cfg.funcMatchBits = 11) (a b : BitVec 11) : funcMatches cfg a b = (a == b) := by
  rw [funcMatches, hk, Nat.mod_eq_of_lt a.isLt, Nat.mod_eq_of_lt b.isLt]
  by_cases h : a = b
  · simp [h]
  · have hn : a.toNat ≠ b.toNat := fun e => h (BitVec.eq_of_toNat_eq e)
    simp [h, hn]

/-- What allowed parameters say of the codes of `sra` and `srai` (30_encoding.md R73). -/
theorem Config.codesDistinct_of_wf {cfg : Config} (h : cfg.wf = true) :
    6 ≤ cfg.funcMatchBits ∧ cfg.funcMatchBits ≤ 11 ∧
      (∀ f ∈ takenFuncs, funcMatches cfg f cfg.sraFunc = false) ∧ ∀ op ∈ takenOpcodes, op ≠ cfg.sraiOpcode := by
  simp only [Config.wf, Config.codesDistinct, Bool.and_eq_true, decide_eq_true_eq, List.all_eq_true, bne_iff_ne] at h
  obtain ⟨⟨_, ⟨⟨h6, h11⟩, hf⟩, ho⟩, _⟩ := h
  exact ⟨h6, h11, fun f hm => by simp [funcMatches, hf f hm], ho⟩

end Sys2Proof
end

