-- ==== Sys2Proof/Laws/State.lean ====
section
/-! SUPPORT. What each update of the state does to each field and to the reads of registers and data memory. -/

namespace Sys2Proof.Machine

variable (s : State) (r q : Reg) (v w : Word) (a : Nat)

/-! ### The parameters with one value (00_scope.md R5) -/

/-- `XLEN` is the width of `Word`. -/
theorem Config.xlen_bits (c : Config) : c.xlen.bits = 32 := by cases c.xlen; rfl

/-- `NREGS` is the number of values of `Reg`. -/
theorem Config.nregs_count (c : Config) : c.nregs.count = 32 := by cases c.nregs; rfl

/-! ### `setReg` -/

@[simp] theorem State.setReg_pc : (s.setReg r v).pc = s.pc := by unfold State.setReg; split <;> rfl
@[simp] theorem State.setReg_dmem : (s.setReg r v).dmem = s.dmem := by unfold State.setReg; split <;> rfl
@[simp] theorem State.setReg_imem : (s.setReg r v).imem = s.imem := by unfold State.setReg; split <;> rfl
@[simp] theorem State.setReg_pending : (s.setReg r v).pending = s.pending := by unfold State.setReg; split <;> rfl
@[simp] theorem State.setReg_cfg : (s.setReg r v).cfg = s.cfg := by unfold State.setReg; split <;> rfl
@[simp] theorem State.setReg_readsZero : (s.setReg r v).readsZero q = s.readsZero q := by simp [State.readsZero]
@[simp] theorem State.setReg_dataByte : (s.setReg r v).dataByte a = s.dataByte a := by simp [State.dataByte]

/-- Register 0 is hardwired exactly when `R0_HARDWIRED` holds. -/
theorem State.readsZero_iff : s.readsZero r = true ↔ r = 0 ∧ s.cfg.r0Hardwired = true := by
  simp [State.readsZero, and_comm]

/-- The register written reads the value, or 0 if it is a hardwired register 0. -/
theorem State.setReg_reg_same : (s.setReg r v).reg r = if r = 0 ∧ s.cfg.r0Hardwired = true then 0 else v := by
  simp only [← State.readsZero_iff]
  unfold State.reg
  simp only [State.setReg_readsZero]
  by_cases h : s.readsZero r = true
  · simp [h]
  · simp [h, State.setReg]

/-- Every other register reads as before. -/
theorem State.setReg_reg_other (h : q ≠ r) : (s.setReg r v).reg q = s.reg q := by
  have hne : (r : Nat) ≠ (q : Nat) := fun e => h (Fin.ext e.symm)
  unfold State.reg
  simp only [State.setReg_readsZero]
  unfold State.setReg
  split
  · rfl
  · by_cases hz : s.readsZero r = true
    · simp [hz]
    · simp only [hz]
      simp [hne]

/-! ### `advance` and `transfer` -/

@[simp] theorem State.advance_regs : s.advance.regs = s.regs := rfl
@[simp] theorem State.advance_pc : s.advance.pc = s.pc + s.cfg.pcStep := rfl
@[simp] theorem State.advance_dmem : s.advance.dmem = s.dmem := rfl
@[simp] theorem State.advance_imem : s.advance.imem = s.imem := rfl
@[simp] theorem State.advance_pending : s.advance.pending = s.pending := rfl
@[simp] theorem State.advance_cfg : s.advance.cfg = s.cfg := rfl
@[simp] theorem State.advance_reg : s.advance.reg r = s.reg r := rfl
@[simp] theorem State.advance_dataByte : s.advance.dataByte a = s.dataByte a := rfl

@[simp] theorem State.transfer_regs : (s.transfer v).regs = s.regs := rfl
@[simp] theorem State.transfer_pc : (s.transfer v).pc = s.pc + s.cfg.targetBaseOffset + v := rfl
@[simp] theorem State.transfer_dmem : (s.transfer v).dmem = s.dmem := rfl
@[simp] theorem State.transfer_imem : (s.transfer v).imem = s.imem := rfl
@[simp] theorem State.transfer_pending : (s.transfer v).pending = s.pending := rfl
@[simp] theorem State.transfer_cfg : (s.transfer v).cfg = s.cfg := rfl
@[simp] theorem State.transfer_reg : (s.transfer v).reg r = s.reg r := rfl
@[simp] theorem State.transfer_dataByte : (s.transfer v).dataByte a = s.dataByte a := rfl

/-! ### `memWrite` -/

@[simp] theorem State.memWrite_regs : (s.memWrite a v).regs = s.regs := rfl
@[simp] theorem State.memWrite_pc : (s.memWrite a v).pc = s.pc := rfl
@[simp] theorem State.memWrite_dmem : (s.memWrite a v).dmem = s.dmem.putWord s.dataOrder a v := rfl
@[simp] theorem State.memWrite_imem : (s.memWrite a v).imem = s.imem := rfl
@[simp] theorem State.memWrite_pending : (s.memWrite a v).pending = s.pending := rfl
@[simp] theorem State.memWrite_cfg : (s.memWrite a v).cfg = s.cfg := rfl
@[simp] theorem State.memWrite_reg : (s.memWrite a v).reg r = s.reg r := rfl

/-! ### What the checks of an access depend on: the parameters alone -/

theorem State.dataCell_congr {s t : State} (h : t.cfg = s.cfg) (ea : Word) : t.dataCell ea = s.dataCell ea := by
  simp [State.dataCell, State.alignData, State.inDataMemory, h]

theorem State.dataOrder_congr {s t : State} (h : t.cfg = s.cfg) : t.dataOrder = s.dataOrder := by
  simp [State.dataOrder, h]

theorem State.memRead_congr {s t : State} (hc : t.cfg = s.cfg) (hd : t.dmem = s.dmem) (a : Nat) :
    t.memRead a = s.memRead a := by
  simp [State.memRead, State.dataByte, State.dataOrder_congr hc, hd]

/-! ### `settle` -/

@[simp] theorem State.settle_regs (i : Instr) (t : State) : (s.settle i t).regs = t.regs := by
  unfold State.settle; split <;> rfl
@[simp] theorem State.settle_dmem (i : Instr) (t : State) : (s.settle i t).dmem = t.dmem := by
  unfold State.settle; split <;> rfl
@[simp] theorem State.settle_imem (i : Instr) (t : State) : (s.settle i t).imem = t.imem := by
  unfold State.settle; split <;> rfl
@[simp] theorem State.settle_cfg (i : Instr) (t : State) : (s.settle i t).cfg = t.cfg := by
  unfold State.settle; split <;> rfl

/-- Without delay slots nothing stands around an instruction. -/
theorem State.settle_noSlots (h : s.cfg.branchDelaySlots = 0) (i : Instr) (t : State) : s.settle i t = t := by
  simp [State.settle, h]

/-- One entry enters the queue of owed transfers and one leaves it. -/
theorem State.settle_pending_length (i : Instr) (t : State) (hs : s.pending.length = s.cfg.branchDelaySlots)
    (ht : t.pending = s.pending) : (s.settle i t).pending.length = s.cfg.branchDelaySlots := by
  unfold State.settle
  split
  · rw [ht, hs]
  · simp [hs]

end Sys2Proof.Machine
end

