-- ==== Sys2Proof/Laws/Memory.lean ====
section
/-! SUPPORT. The laws of a memory: a read after a write, and that every operation keeps the canonical form. -/

namespace Sys2Proof.Machine

/-! ### One byte -/

theorem Memory.byte?_put_same (m : Memory) (a : Nat) (v : Byte) : (m.put a v).byte? a = some v := by
  induction m with
  | nil => simp [Memory.put, Memory.byte?]
  | cons c m ih =>
    obtain ⟨k, b⟩ := c
    simp only [Memory.put]
    split
    · simp [Memory.byte?]
    · split
      · simp [Memory.byte?]
      · rename_i h
        simp [Memory.byte?, Ne.symm h, ih]

theorem Memory.byte?_put_other (m : Memory) {a x : Nat} (v : Byte) (h : x ≠ a) : (m.put a v).byte? x = m.byte? x := by
  induction m with
  | nil => simp [Memory.put, Memory.byte?, Ne.symm h]
  | cons c m ih =>
    obtain ⟨k, b⟩ := c
    simp only [Memory.put]
    split
    · simp [Memory.byte?, Ne.symm h]
    · split
      · rename_i e
        subst e
        simp [Memory.byte?, Ne.symm h]
      · simp [Memory.byte?, ih]

/-- Every address listed after a write was listed before or is the one written. -/
theorem Memory.mem_put {m : Memory} {a : Nat} {v : Byte} {c : Host.Cell} (h : c ∈ m.put a v) : c ∈ m ∨ c = (a, v) := by
  induction m with
  | nil => simpa [Memory.put] using h
  | cons d m ih =>
    obtain ⟨k, b⟩ := d
    simp only [Memory.put] at h
    split at h
    · simp only [List.mem_cons] at h ⊢
      tauto
    · split at h
      · simp only [List.mem_cons] at h ⊢
        tauto
      · simp only [List.mem_cons] at h ⊢
        rcases h with h | h
        · exact .inl (.inl h)
        · rcases ih h with h | h
          · exact .inl (.inr h)
          · exact .inr h

/-- A write keeps the canonical form. -/
theorem Memory.wf_put {m : Memory} (h : m.wf) (a : Nat) (v : Byte) : (m.put a v).wf := by
  induction m with
  | nil => simp [Memory.put]
  | cons c m ih =>
    obtain ⟨k, b⟩ := c
    obtain ⟨hlt, hm⟩ := List.pairwise_cons.mp h
    simp only [Memory.put]
    split
    · rename_i hak
      refine List.pairwise_cons.mpr ⟨fun d hd => ?_, h⟩
      rcases List.mem_cons.mp hd with rfl | hd
      · exact hak
      · exact lt_trans hak (hlt d hd)
    · split
      · rename_i e
        subst e
        exact List.pairwise_cons.mpr ⟨hlt, hm⟩
      · rename_i h1 h2
        refine List.pairwise_cons.mpr ⟨fun d hd => ?_, ih hm⟩
        rcases Memory.mem_put hd with hd | rfl
        · exact hlt d hd
        · show k < a
          omega

/-! ### Several bytes -/

theorem Memory.wf_putBytes {m : Memory} (h : m.wf) (a : Nat) (bs : List Byte) : (m.putBytes a bs).wf := by
  induction bs generalizing m a with
  | nil => exact h
  | cons b bs ih => exact ih (Memory.wf_put h a b) (a + 1)

theorem Memory.byte?_putBytes_before (m : Memory) {a x : Nat} (bs : List Byte) (h : x < a) :
    (m.putBytes a bs).byte? x = m.byte? x := by
  induction bs generalizing m a with
  | nil => rfl
  | cons b bs ih =>
    rw [Memory.putBytes, ih _ (by omega), Memory.byte?_put_other _ _ (by omega)]

theorem Memory.byte?_putBytes_after (m : Memory) {a x : Nat} (bs : List Byte) (h : a + bs.length ≤ x) :
    (m.putBytes a bs).byte? x = m.byte? x := by
  induction bs generalizing m a with
  | nil => rfl
  | cons b bs ih =>
    simp only [List.length_cons] at h
    rw [Memory.putBytes, ih _ (by omega), Memory.byte?_put_other _ _ (by omega)]

theorem Memory.byte?_putBytes_at (m : Memory) (a : Nat) (bs : List Byte) (k : Nat) (h : k < bs.length) :
    (m.putBytes a bs).byte? (a + k) = some bs[k] := by
  induction bs generalizing m a k with
  | nil => simp at h
  | cons b bs ih =>
    cases k with
    | zero => rw [Memory.putBytes, Memory.byte?_putBytes_before _ _ (by omega), Nat.add_zero, Memory.byte?_put_same]; rfl
    | succ k =>
      have := ih (m.put a b) (a + 1) k (by simpa using h)
      rw [Memory.putBytes, show a + (k + 1) = a + 1 + k by omega, this]
      rfl

/-! ### Words -/

@[simp] theorem bytesOfWord_length (order : ByteOrder) (w : Word) : (bytesOfWord order w).length = 4 := by
  cases order <;> rfl

theorem Memory.wf_putWord {m : Memory} (h : m.wf) (order : ByteOrder) (a : Nat) (w : Word) : (m.putWord order a w).wf :=
  Memory.wf_putBytes h a _

theorem Memory.byte?_putWord_at (m : Memory) (order : ByteOrder) (a : Nat) (w : Word) (k : Nat) (h : k < 4) :
    (m.putWord order a w).byte? (a + k) = some ((bytesOfWord order w)[k]'(by simpa using h)) :=
  Memory.byte?_putBytes_at m a _ k (by simpa using h)

theorem Memory.byte?_putWord_other (m : Memory) (order : ByteOrder) {a x : Nat} (w : Word) (h : x < a ∨ a + 4 ≤ x) :
    (m.putWord order a w).byte? x = m.byte? x := by
  rcases h with h | h
  · exact Memory.byte?_putBytes_before m _ h
  · exact Memory.byte?_putBytes_after m _ (by simpa using h)

/-- The four bytes of a word make that word again, in either byte order. -/
theorem wordOfBytes_bytesOfWord (order : ByteOrder) (w : Word) :
    wordOfBytes order (bytesOfWord order w)[0] (bytesOfWord order w)[1] (bytesOfWord order w)[2] (bytesOfWord order w)[3] = w := by
  have key : w.extractLsb' 24 8 ++ w.extractLsb' 16 8 ++ w.extractLsb' 8 8 ++ w.extractLsb' 0 8 = w := by
    refine BitVec.eq_of_getLsbD_eq fun k hk => ?_
    simp only [BitVec.getLsbD_append, BitVec.getLsbD_extractLsb']
    rcases lt_or_ge k 8 with h | h
    · simp [h]
    rcases lt_or_ge k 16 with h' | h'
    · simp [show ¬ k < 8 by omega, show k - 8 < 8 by omega, show 8 + (k - 8) = k by omega]
    rcases lt_or_ge k 24 with h'' | h''
    · simp [show ¬ k < 8 by omega, show ¬ k - 8 < 8 by omega, show k - 8 - 8 < 8 by omega, show 16 + (k - 8 - 8) = k by omega]
    · simp [show ¬ k < 8 by omega, show ¬ k - 8 < 8 by omega, show ¬ k - 8 - 8 < 8 by omega, show k - 8 - 8 - 8 < 8 by omega,
        show 24 + (k - 8 - 8 - 8) = k by omega]
  cases order <;> exact key

theorem Memory.word?_putWord_same (m : Memory) (order : ByteOrder) (a : Nat) (w : Word) :
    (m.putWord order a w).word? order a = some w := by
  have h0 := m.byte?_putWord_at order a w 0 (by omega)
  have h1 := m.byte?_putWord_at order a w 1 (by omega)
  have h2 := m.byte?_putWord_at order a w 2 (by omega)
  have h3 := m.byte?_putWord_at order a w 3 (by omega)
  simp only [Nat.add_zero] at h0
  simp only [Memory.word?, h0, h1, h2, h3]
  exact congrArg some (wordOfBytes_bytesOfWord order w)

theorem Memory.word?_putWord_other (m : Memory) (order : ByteOrder) {a x : Nat} (w : Word) (h : x + 4 ≤ a ∨ a + 4 ≤ x) :
    (m.putWord order a w).word? order x = m.word? order x := by
  simp only [Memory.word?]
  rw [m.byte?_putWord_other order w (by omega), m.byte?_putWord_other order w (by omega),
    m.byte?_putWord_other order w (by omega), m.byte?_putWord_other order w (by omega)]

/-! ### A program -/

theorem Memory.wf_ofWords (order : ByteOrder) (base : Nat) (ws : List Word) : (Memory.ofWords order base ws).wf := by
  induction ws generalizing base with
  | nil => exact List.Pairwise.nil
  | cons w ws ih => exact Memory.wf_putWord (ih _) order base w

theorem Memory.word?_ofWords_at (order : ByteOrder) (base : Nat) (ws : List Word) (k : Nat) (h : k < ws.length) :
    (Memory.ofWords order base ws).word? order (base + 4 * k) = some ws[k] := by
  induction ws generalizing base k with
  | nil => simp at h
  | cons w ws ih =>
    cases k with
    | zero => exact Memory.word?_putWord_same _ order base w
    | succ k =>
      rw [Memory.ofWords, Memory.word?_putWord_other _ order w (by omega), show base + 4 * (k + 1) = base + 4 + 4 * k by omega,
        ih (base + 4) k (by simpa using h)]
      rfl

theorem Memory.byte?_ofWords_after (order : ByteOrder) (base : Nat) (ws : List Word) {x : Nat} (h : base + 4 * ws.length ≤ x) :
    (Memory.ofWords order base ws).byte? x = none := by
  induction ws generalizing base with
  | nil => rfl
  | cons w ws ih =>
    simp only [List.length_cons] at h
    rw [Memory.ofWords, Memory.byte?_putWord_other _ order w (by omega), ih (base + 4) (by omega)]

/-! ### The data memory of a state -/

/-- What `sw` stores `lw` reads back, in every byte order and addressing. -/
theorem State.memRead_memWrite_same (s : State) (a : Nat) (v : Word) : (s.memWrite a v).memRead a = v := by
  have h := fun k hk => Memory.byte?_putWord_at s.dmem s.dataOrder a v k hk
  have h0 := h 0 (by omega)
  simp only [Nat.add_zero] at h0
  simp only [State.memRead, State.dataByte, State.memWrite_dmem, h0, h 1 (by omega), h 2 (by omega), h 3 (by omega),
    Option.getD_some, State.dataOrder_congr (State.memWrite_cfg s v a)]
  exact wordOfBytes_bytesOfWord _ v

theorem State.dataByte_memWrite_other (s : State) {a x : Nat} (v : Word) (h : x < a ∨ a + 4 ≤ x) :
    (s.memWrite a v).dataByte x = s.dataByte x := by
  simp [State.dataByte, Memory.byte?_putWord_other _ _ v h]

theorem State.memRead_memWrite_other (s : State) {a x : Nat} (v : Word) (h : x + 4 ≤ a ∨ a + 4 ≤ x) :
    (s.memWrite a v).memRead x = s.memRead x := by
  simp only [State.memRead, State.dataOrder_congr (State.memWrite_cfg s v a)]
  rw [s.dataByte_memWrite_other v (by omega), s.dataByte_memWrite_other v (by omega), s.dataByte_memWrite_other v (by omega),
    s.dataByte_memWrite_other v (by omega)]

/-- The memories of the reset state are in canonical form. -/
theorem State.reset_memories_wf : State.reset.dmem.wf ∧ State.reset.imem.wf :=
  ⟨List.Pairwise.nil, List.Pairwise.nil⟩

end Sys2Proof.Machine
end

