-- ==== Sys2Proof/Laws/Exec.lean ====
section
/-! SUPPORT. Once and for all: what the shared endings of the instructions do, what the checks of a data access answer, and what an
execution or a step can do. -/

namespace Sys2Proof.Machine

/-! ### Program counter arithmetic -/

theorem nextWord_eq (s : State) : s.pc + s.cfg.pcStep = nextWord s := by
  apply BitVec.eq_of_toNat_eq
  simp [nextWord, BitVec.toNat_add]

/-! ### The endings -/

/-- An instruction that writes one register and advances. -/
theorem writeBack_writesReg (rd : Reg) (v : Word) (s : State) :
    ∃ t, writeBack rd v s = .next t ∧ WritesReg s t rd v :=
  ⟨_, rfl, ⟨by simp [State.setReg_reg_same], fun r h => by simp [State.setReg_reg_other s rd r v h]⟩,
    by simp [nextWord_eq], ⟨by simp, by simp⟩, by simp, by simp, by simp⟩

/-- Advancing changes only `pc`. -/
theorem State.advance_onlySetsPc (s : State) : OnlySetsPc s s.advance (nextWord s) :=
  ⟨fun _ => rfl, nextWord_eq s, ⟨fun _ => rfl, fun _ => rfl⟩, rfl, rfl, rfl⟩

/-- A transfer changes only `pc`. -/
theorem State.transfer_onlySetsPc (s : State) (v : Word) : OnlySetsPc s (s.transfer v) (s.pc + s.cfg.targetBaseOffset + v) :=
  ⟨fun _ => rfl, rfl, ⟨fun _ => rfl, fun _ => rfl⟩, rfl, rfl, rfl⟩

/-! ### The checks of a data access, by `DMEM_ADDRESSING` and `DMEM_MISALIGNED` -/

theorem State.inDataMemory_iff (s : State) (a : Nat) :
    s.inDataMemory a = true ↔ s.cfg.dmemBase ≤ a ∧ a + 3 < s.cfg.dmemBase + s.cfg.dmemSize := by
  simp [State.inDataMemory]

theorem State.dataCell_word {s : State} (h : s.cfg.dmemAddressing = .word) (ea : Word) :
    s.dataCell ea = if s.inDataMemory ea.toNat then .ok (4 * ea.toNat) else .error (.dataOutOfRange ea) := by
  simp [State.dataCell, h]

theorem State.dataCell_refuse {s : State} (h : s.cfg.dmemAddressing = .byte) (hm : s.cfg.dmemMisaligned = .refuse) (ea : Word) :
    s.dataCell ea = if ea.toNat % 4 ≠ 0 then .error (.misalignedData ea)
      else if s.inDataMemory ea.toNat then .ok ea.toNat else .error (.dataOutOfRange ea) := by
  by_cases ha : ea.toNat % 4 = 0 <;> simp [State.dataCell, State.alignData, h, hm, ha]

theorem State.dataCell_ignoreLowBits {s : State} (h : s.cfg.dmemAddressing = .byte) (hm : s.cfg.dmemMisaligned = .ignoreLowBits)
    (ea : Word) :
    s.dataCell ea = if s.inDataMemory (ea.toNat / 4 * 4) then .ok (ea.toNat / 4 * 4) else .error (.dataOutOfRange ea) := by
  simp [State.dataCell, State.alignData, h, hm]

theorem State.dataCell_split {s : State} (h : s.cfg.dmemAddressing = .byte) (hm : s.cfg.dmemMisaligned = .split) (ea : Word) :
    s.dataCell ea = if s.inDataMemory ea.toNat then .ok ea.toNat else .error (.dataOutOfRange ea) := by
  simp [State.dataCell, State.alignData, h, hm]

/-- A check that fails names the effective address. -/
theorem State.dataCell_error {s : State} {ea : Word} {q : Refusal} (h : s.dataCell ea = .error q) :
    q = .misalignedData ea ∨ q = .dataOutOfRange ea := by
  revert h
  unfold State.dataCell State.alignData
  repeat' split
  all_goals simp_all
  all_goals aesop

/-! ### What an execution can do -/

/-- Every instruction writes back one register, only advances, takes a transfer (with a link for `jal`), or accesses data memory. -/
theorem exec_cases (i : Instr) (s : State) :
    (∃ rd v, destReg i = some rd ∧ offsetOf i = none ∧ exec i s = writeBack rd v s) ∨
    (exec i s = .next s.advance) ∨
    (∃ off : Word, (∃ o, offsetOf i = some o ∧ BitVec.ofInt 32 o = off) ∧ exec i s = .next (s.transfer off)) ∨
    (∃ off : BitVec 26, i = .jal off ∧
      exec i s = .next ((s.setReg 31 (s.pc + s.cfg.linkOffset)).transfer (sext32 off))) ∨
    (∃ rd rs1 imm, i = .lw rd rs1 imm ∧ exec i s = execLw rd rs1 imm s) ∨
    (∃ rs1 rs2 imm, i = .sw rs1 rs2 imm ∧ exec i s = execSw rs1 rs2 imm s) := by
  have hs16 : ∀ off : BitVec 16, BitVec.ofInt 32 off.toInt = sext32 off := fun _ => rfl
  have hs26 : ∀ off : BitVec 26, BitVec.ofInt 32 off.toInt = sext32 off := fun _ => rfl
  cases i
  case lw rd rs1 imm => exact .inr (.inr (.inr (.inr (.inl ⟨rd, rs1, imm, rfl, rfl⟩))))
  case sw rs1 rs2 imm => exact .inr (.inr (.inr (.inr (.inr ⟨rs1, rs2, imm, rfl, rfl⟩))))
  case jal off => exact .inr (.inr (.inr (.inl ⟨off, rfl, rfl⟩)))
  case j off => exact .inr (.inr (.inl ⟨_, ⟨_, rfl, hs26 off⟩, rfl⟩))
  case nop => exact .inr (.inl rfl)
  case beqz rs1 off =>
    by_cases h : s.reg rs1 = 0
    · exact .inr (.inr (.inl ⟨_, ⟨_, rfl, hs16 off⟩, by rw [exec, execBeqz, if_pos h]⟩))
    · exact .inr (.inl (by rw [exec, execBeqz, if_neg h]))
  case bnez rs1 off =>
    by_cases h : s.reg rs1 = 0
    · exact .inr (.inl (by rw [exec, execBnez, if_neg (not_not.mpr h)]))
    · exact .inr (.inr (.inl ⟨_, ⟨_, rfl, hs16 off⟩, by rw [exec, execBnez, if_pos h]⟩))
  all_goals exact .inl ⟨_, _, rfl, rfl, rfl⟩

/-- A load that answers a next state passed the checks. -/
theorem execLw_next {rd rs1 : Reg} {imm : BitVec 16} {s t : State} (h : execLw rd rs1 imm s = .next t) :
    ∃ a, s.dataCell (s.effectiveAddress rs1 imm) = .ok a ∧ t = (s.setReg rd (s.memRead a)).advance := by
  unfold execLw at h
  split at h
  · cases h
  · rename_i a ha
    exact ⟨a, ha, by cases h; rfl⟩

/-- A store that answers a next state passed the checks. -/
theorem execSw_next {rs1 rs2 : Reg} {imm : BitVec 16} {s t : State} (h : execSw rs1 rs2 imm s = .next t) :
    ∃ a, s.dataCell (s.effectiveAddress rs1 imm) = .ok a ∧ t = (s.memWrite a (s.reg rs2)).advance := by
  unfold execSw at h
  split at h
  · cases h
  · rename_i a ha
    exact ⟨a, ha, by cases h; rfl⟩

/-- No execution touches the program, the parameters or the transfers owed. -/
theorem exec_sameLaunch {i : Instr} {s t : State} (h : exec i s = .next t) : SameLaunch s t := by
  rcases exec_cases i s with ⟨rd, v, -, -, e⟩ | e | ⟨off, -, e⟩ | ⟨off, -, e⟩ | ⟨rd, rs1, imm, -, e⟩ | ⟨rs1, rs2, imm, -, e⟩ <;>
    rw [e] at h
  · cases h; exact ⟨by simp, by simp, by simp⟩
  · cases h; exact ⟨rfl, rfl, rfl⟩
  · cases h; exact ⟨rfl, rfl, rfl⟩
  · cases h; exact ⟨by simp, by simp, by simp⟩
  · obtain ⟨a, -, rfl⟩ := execLw_next h; exact ⟨by simp, by simp, by simp⟩
  · obtain ⟨a, -, rfl⟩ := execSw_next h; exact ⟨rfl, rfl, rfl⟩

/-- An execution keeps the data memory's canonical form. -/
theorem exec_dmem_wf {i : Instr} {s t : State} (h : exec i s = .next t) (hw : s.dmem.wf) : t.dmem.wf := by
  rcases exec_cases i s with ⟨rd, v, -, -, e⟩ | e | ⟨off, -, e⟩ | ⟨off, -, e⟩ | ⟨rd, rs1, imm, -, e⟩ | ⟨rs1, rs2, imm, -, e⟩ <;>
    rw [e] at h
  · cases h; simpa using hw
  · cases h; exact hw
  · cases h; exact hw
  · cases h; simpa using hw
  · obtain ⟨a, -, rfl⟩ := execLw_next h; simpa using hw
  · obtain ⟨a, -, rfl⟩ := execSw_next h; exact Memory.wf_putWord hw _ _ _

/-! ### What a step can do -/

/-- A step that answers a next state either starts where the run is over and answers the same state, or runs the instruction it
fetches. -/
theorem step_next {s t : State} (h : step s = .next t) :
    (s.fetchNext = .runOver ∧ t = s) ∨ ∃ i u, s.fetchNext = .instr i ∧ exec i s = .next u ∧ t = s.settle i u := by
  unfold step at h
  split at h
  · cases h
  · rename_i hf
    exact .inl ⟨hf, by cases h; rfl⟩
  · rename_i i hf
    unfold onNext at h
    split at h
    · rename_i u hu
      exact .inr ⟨i, u, hf, hu, by cases h; rfl⟩
    · cases h
    · cases h

end Sys2Proof.Machine
end

