-- ==== Sys2Proof/Laws/Operands.lean ====
section
/-! SUPPORT. The operand forms in exact arithmetic: extension, shifts, the effective address, the target of a transfer, and the bytes
of an access. -/

namespace Sys2Proof.Machine

/-! ### Extension (00_scope.md R9) -/

theorem sext32_eq {n : Nat} (v : BitVec n) : sext32 v = BitVec.ofInt 32 v.toInt := rfl

theorem toInt_sext32 (v : BitVec 16) : (sext32 v).toInt = v.toInt :=
  BitVec.toInt_signExtend_of_le (by decide)

theorem toNat_zext32 (v : BitVec 16) : (zext32 v).toNat = v.toNat := by
  have := v.isLt
  rw [zext32, BitVec.toNat_setWidth]
  omega

theorem word_add_ofInt (a : Word) (n : Int) : a + BitVec.ofInt 32 n = BitVec.ofInt 32 (a.toNat + n) := by
  rw [BitVec.ofInt_add]
  congr 1
  simp

theorem word_sub_ofInt (a : Word) (n : Int) : a - BitVec.ofInt 32 n = BitVec.ofInt 32 (a.toNat - n) := by
  rw [BitVec.sub_eq_add_neg, ← BitVec.ofInt_neg, Int.sub_eq_add_neg, word_add_ofInt]

/-! ### Shifts (00_scope.md R10): every count, also 32 and more -/

theorem shl_eq (v : Word) (n : Nat) : shl v n = BitVec.ofNat 32 (v.toNat * 2 ^ n) := by
  apply BitVec.eq_of_toNat_eq
  unfold shl
  split
  · simp [BitVec.toNat_shiftLeft, Nat.shiftLeft_eq]
  · have h : 2 ^ 32 ∣ v.toNat * 2 ^ n := Dvd.dvd.mul_left (pow_dvd_pow 2 (by omega)) _
    rw [BitVec.toNat_ofNat]
    exact (Nat.mod_eq_zero_of_dvd h).symm

theorem shrU_eq (v : Word) (n : Nat) : shrU v n = BitVec.ofNat 32 (v.toNat / 2 ^ n) := by
  unfold shrU
  split
  · apply BitVec.eq_of_toNat_eq
    simp only [BitVec.toNat_ushiftRight, Nat.shiftRight_eq_div_pow, BitVec.toNat_ofNat]
    exact (Nat.mod_eq_of_lt (lt_of_le_of_lt (Nat.div_le_self _ _) v.isLt)).symm
  · rw [Nat.div_eq_of_lt (lt_of_lt_of_le v.isLt (Nat.pow_le_pow_right (by decide) (by omega)))]
    rfl

theorem shrS_eq (v : Word) (n : Nat) : shrS v n = BitVec.ofInt 32 (v.toInt.fdiv (2 ^ n)) := by
  rw [Int.fdiv_eq_ediv_of_nonneg _ (by positivity)]
  unfold shrS
  split
  · unfold BitVec.sshiftRight
    rw [Int.shiftRight_eq_div_pow]
    norm_cast
  · have h1 := BitVec.toInt_lt (x := v)
    have h2 := BitVec.le_toInt (x := v)
    have hp : (2 : Int) ^ 31 ≤ 2 ^ n := by exact_mod_cast Nat.pow_le_pow_right (by decide) (show 31 ≤ n by omega)
    norm_num at h1 h2 hp
    rw [BitVec.msb_eq_toInt]
    by_cases hn : v.toInt < 0
    · rw [show v.toInt / 2 ^ n = -1 by rw [Int.ediv_eq_iff_of_pos (by positivity)]; constructor <;> linarith]
      simp [hn]
    · rw [Int.ediv_eq_zero_of_lt (by omega) (by linarith)]
      simp [hn]

/-! ### Addresses (41_load_store.md R122, 43_control_transfer.md R155) -/

theorem State.effectiveAddress_eq (s : State) (rs1 : Reg) (imm : BitVec 16) : s.effectiveAddress rs1 imm = addressOf s rs1 imm :=
  word_add_ofInt _ _

theorem State.target_eq {n : Nat} (s : State) (off : BitVec n) :
    s.pc + s.cfg.targetBaseOffset + sext32 off = targetOf s off.toInt := by
  rw [sext32_eq, targetOf, BitVec.ofInt_add, BitVec.ofInt_add]
  congr 1
  simp

/-- Clearing the two low bits of an address (20_memory.md R47). -/
theorem toNat_clearLow (v : Word) : (v &&& 0xFFFFFFFC).toNat = v.toNat / 4 * 4 := by
  have h : ((v >>> 2) <<< 2 : BitVec 32) = v &&& 0xFFFFFFFC := by
    apply BitVec.eq_of_getLsbD_eq
    intro i hi
    interval_cases i <;> simp
  have := v.isLt
  rw [← h]
  simp only [BitVec.toNat_shiftLeft, BitVec.toNat_ushiftRight, Nat.shiftLeft_eq, Nat.shiftRight_eq_div_pow]
  omega

/-! ### The bytes of a word (20_memory.md R46) -/

theorem State.memRead_eq_bytesAt (s : State) (a : Nat) : s.memRead a = bytesAt s s.dataOrder a := by
  unfold State.memRead bytesAt wordOfBytes
  cases s.dataOrder <;> rfl

theorem bytesOfWord_getElem (order : ByteOrder) (v : Word) (k : Nat) (h : k < (bytesOfWord order v).length) :
    (bytesOfWord order v)[k] = byteOf order v k := by
  cases order <;> (simp only [bytesOfWord, List.length_cons, List.length_nil] at h; interval_cases k <;> rfl)

theorem State.dataOrder_byte {s : State} (h : s.cfg.dmemAddressing = .byte) : s.dataOrder = s.cfg.byteOrder := by
  simp [State.dataOrder, h]

theorem State.dataOrder_word {s : State} (h : s.cfg.dmemAddressing = .word) : s.dataOrder = .big := by
  simp [State.dataOrder, h]

end Sys2Proof.Machine
end

