-- ==== Sys2Proof/Laws/PerInstr.lean ====
section
/-! SUPPORT. Statements about every instruction, one lemma per constructor. -/

namespace Sys2Proof.Laws.EncodesFields

/-- The canonical word of an instruction holds each register operand in the field 30_encoding.md R66 gives it. -/
def Statement (i : Instr) : Prop :=
  ∀ cfg : Config,
    match i with
    | .addi rd rs1 _ | .subi rd rs1 _ | .andi rd rs1 _ | .ori rd rs1 _ | .xori rd rs1 _ | .slli rd rs1 _ | .srli rd rs1 _
    | .srai rd rs1 _ | .snei rd rs1 _ | .slei rd rs1 _ | .sgei rd rs1 _ | .lw rd rs1 _ | .sw rs1 rd _ =>
      rs1Field (encode cfg i) = rs1 ∧ rs2Field (encode cfg i) = rd
    | .add rd rs1 rs2 | .sub rd rs1 rs2 | .and rd rs1 rs2 | .or rd rs1 rs2 | .xor rd rs1 rs2 | .sll rd rs1 rs2
    | .srl rd rs1 rs2 | .sra rd rs1 rs2 | .sne rd rs1 rs2 | .sle rd rs1 rs2 | .sge rd rs1 rs2 =>
      rs1Field (encode cfg i) = rs1 ∧ rs2Field (encode cfg i) = rs2 ∧ rs3Field (encode cfg i) = rd
    | .beqz rs1 _ | .bnez rs1 _ => rs1Field (encode cfg i) = rs1 ∧ rs2Field (encode cfg i) = 0
    | .j off | .jal off => imm26Field (encode cfg i) = off
    | .nop => imm26Field (encode cfg i) = 0

theorem addi (rd : Reg) (rs1 : Reg) (imm : BitVec 16) : Statement (.addi rd rs1 imm) := fun _ => ⟨rs1Field_encodeI _ _ _ _, rs2Field_encodeI _ _ _ _⟩
theorem subi (rd : Reg) (rs1 : Reg) (imm : BitVec 16) : Statement (.subi rd rs1 imm) := fun _ => ⟨rs1Field_encodeI _ _ _ _, rs2Field_encodeI _ _ _ _⟩
theorem andi (rd : Reg) (rs1 : Reg) (uimm : BitVec 16) : Statement (.andi rd rs1 uimm) := fun _ => ⟨rs1Field_encodeI _ _ _ _, rs2Field_encodeI _ _ _ _⟩
theorem ori (rd : Reg) (rs1 : Reg) (uimm : BitVec 16) : Statement (.ori rd rs1 uimm) := fun _ => ⟨rs1Field_encodeI _ _ _ _, rs2Field_encodeI _ _ _ _⟩
theorem xori (rd : Reg) (rs1 : Reg) (uimm : BitVec 16) : Statement (.xori rd rs1 uimm) := fun _ => ⟨rs1Field_encodeI _ _ _ _, rs2Field_encodeI _ _ _ _⟩
theorem slli (rd : Reg) (rs1 : Reg) (uimm : BitVec 16) : Statement (.slli rd rs1 uimm) := fun _ => ⟨rs1Field_encodeI _ _ _ _, rs2Field_encodeI _ _ _ _⟩
theorem srli (rd : Reg) (rs1 : Reg) (uimm : BitVec 16) : Statement (.srli rd rs1 uimm) := fun _ => ⟨rs1Field_encodeI _ _ _ _, rs2Field_encodeI _ _ _ _⟩
theorem srai (rd : Reg) (rs1 : Reg) (uimm : BitVec 16) : Statement (.srai rd rs1 uimm) := fun _ => ⟨rs1Field_encodeI _ _ _ _, rs2Field_encodeI _ _ _ _⟩
theorem snei (rd : Reg) (rs1 : Reg) (imm : BitVec 16) : Statement (.snei rd rs1 imm) := fun _ => ⟨rs1Field_encodeI _ _ _ _, rs2Field_encodeI _ _ _ _⟩
theorem slei (rd : Reg) (rs1 : Reg) (imm : BitVec 16) : Statement (.slei rd rs1 imm) := fun _ => ⟨rs1Field_encodeI _ _ _ _, rs2Field_encodeI _ _ _ _⟩
theorem sgei (rd : Reg) (rs1 : Reg) (imm : BitVec 16) : Statement (.sgei rd rs1 imm) := fun _ => ⟨rs1Field_encodeI _ _ _ _, rs2Field_encodeI _ _ _ _⟩
theorem lw (rd : Reg) (rs1 : Reg) (imm : BitVec 16) : Statement (.lw rd rs1 imm) := fun _ => ⟨rs1Field_encodeI _ _ _ _, rs2Field_encodeI _ _ _ _⟩
theorem sw (rs1 : Reg) (rs2 : Reg) (imm : BitVec 16) : Statement (.sw rs1 rs2 imm) := fun _ => ⟨rs1Field_encodeI _ _ _ _, rs2Field_encodeI _ _ _ _⟩
theorem add (rd : Reg) (rs1 : Reg) (rs2 : Reg) : Statement (.add rd rs1 rs2) := fun _ => ⟨rs1Field_encodeR _ _ _ _, rs2Field_encodeR _ _ _ _, rs3Field_encodeR _ _ _ _⟩
theorem sub (rd : Reg) (rs1 : Reg) (rs2 : Reg) : Statement (.sub rd rs1 rs2) := fun _ => ⟨rs1Field_encodeR _ _ _ _, rs2Field_encodeR _ _ _ _, rs3Field_encodeR _ _ _ _⟩
theorem and (rd : Reg) (rs1 : Reg) (rs2 : Reg) : Statement (.and rd rs1 rs2) := fun _ => ⟨rs1Field_encodeR _ _ _ _, rs2Field_encodeR _ _ _ _, rs3Field_encodeR _ _ _ _⟩
theorem or (rd : Reg) (rs1 : Reg) (rs2 : Reg) : Statement (.or rd rs1 rs2) := fun _ => ⟨rs1Field_encodeR _ _ _ _, rs2Field_encodeR _ _ _ _, rs3Field_encodeR _ _ _ _⟩
theorem xor (rd : Reg) (rs1 : Reg) (rs2 : Reg) : Statement (.xor rd rs1 rs2) := fun _ => ⟨rs1Field_encodeR _ _ _ _, rs2Field_encodeR _ _ _ _, rs3Field_encodeR _ _ _ _⟩
theorem sll (rd : Reg) (rs1 : Reg) (rs2 : Reg) : Statement (.sll rd rs1 rs2) := fun _ => ⟨rs1Field_encodeR _ _ _ _, rs2Field_encodeR _ _ _ _, rs3Field_encodeR _ _ _ _⟩
theorem srl (rd : Reg) (rs1 : Reg) (rs2 : Reg) : Statement (.srl rd rs1 rs2) := fun _ => ⟨rs1Field_encodeR _ _ _ _, rs2Field_encodeR _ _ _ _, rs3Field_encodeR _ _ _ _⟩
theorem sra (rd : Reg) (rs1 : Reg) (rs2 : Reg) : Statement (.sra rd rs1 rs2) := fun _ => ⟨rs1Field_encodeR _ _ _ _, rs2Field_encodeR _ _ _ _, rs3Field_encodeR _ _ _ _⟩
theorem sne (rd : Reg) (rs1 : Reg) (rs2 : Reg) : Statement (.sne rd rs1 rs2) := fun _ => ⟨rs1Field_encodeR _ _ _ _, rs2Field_encodeR _ _ _ _, rs3Field_encodeR _ _ _ _⟩
theorem sle (rd : Reg) (rs1 : Reg) (rs2 : Reg) : Statement (.sle rd rs1 rs2) := fun _ => ⟨rs1Field_encodeR _ _ _ _, rs2Field_encodeR _ _ _ _, rs3Field_encodeR _ _ _ _⟩
theorem sge (rd : Reg) (rs1 : Reg) (rs2 : Reg) : Statement (.sge rd rs1 rs2) := fun _ => ⟨rs1Field_encodeR _ _ _ _, rs2Field_encodeR _ _ _ _, rs3Field_encodeR _ _ _ _⟩
theorem beqz (rs1 : Reg) (off : BitVec 16) : Statement (.beqz rs1 off) := fun _ => ⟨rs1Field_encodeI _ _ _ _, rs2Field_encodeI _ _ _ _⟩
theorem bnez (rs1 : Reg) (off : BitVec 16) : Statement (.bnez rs1 off) := fun _ => ⟨rs1Field_encodeI _ _ _ _, rs2Field_encodeI _ _ _ _⟩
theorem j (off : BitVec 26) : Statement (.j off) := fun _ => imm26Field_encodeJ _ _
theorem jal (off : BitVec 26) : Statement (.jal off) := fun _ => imm26Field_encodeJ _ _
theorem nop : Statement (.nop) := fun _ => imm26Field_encodeJ _ _

end Sys2Proof.Laws.EncodesFields
end

