-- ==== Sys2Proof/Laws/Run.lean ====
section
/-! SUPPORT. From what a fetch finds to the step, and from steps to a run of the host's interface. -/

namespace Sys2Proof.Machine

theorem fetchNext_of_ifetch {s : State} {iw : Word} {i : Instr} (ha : s.pc.toNat % 4 = 0) (hh : s.cfg.haltPc ≠ some s.pc)
    (hf : s.ifetch? s.pc.toNat = some iw) (hd : decode s.cfg iw = .ok i) : s.fetchNext = .instr i := by
  simp [State.fetchNext, ha, hh, hf, hd]

theorem step_of_fetchNext {s : State} {i : Instr} (h : s.fetchNext = .instr i) : step s = onNext (s.settle i) (exec i s) := by
  rw [step, h]

theorem step_of_runOver {s : State} (h : s.runOver) : step s = .next s := by
  simp [step, State.fetchNext, h.1, h.2]

theorem onNext_settle_noSlots {s : State} (h : s.cfg.branchDelaySlots = 0) (i : Instr) (o : Host.Outcome State Fault Refusal) :
    onNext (s.settle i) o = o := by
  cases o <;> simp [onNext, State.settle_noSlots s h]

theorem Memory.word?_of_bytes {m : Memory} {order : ByteOrder} {a : Nat} {b0 b1 b2 b3 : Byte} (h0 : m.byte? a = some b0)
    (h1 : m.byte? (a + 1) = some b1) (h2 : m.byte? (a + 2) = some b2) (h3 : m.byte? (a + 3) = some b3) :
    m.word? order a = some (wordOfBytes order b0 b1 b2 b3) := by
  simp [Memory.word?, h0, h1, h2, h3]

/-- A run whose first step answers a next state goes on from there. -/
theorem run_succ_of_next {M : Host.Core} {n : Nat} {s t : M.State} (h : M.step s = .next t) : M.run (n + 1) s = M.run n t := by
  simp [Host.Core.run, h]

/-- A run that answers a next state does so through its first step. -/
theorem run_succ_next {M : Host.Core} {n : Nat} {s t : M.State} (h : M.run (n + 1) s = .next t) :
    ∃ u, M.step s = .next u ∧ M.run n u = .next t := by
  unfold Host.Core.run at h
  split at h
  · exact ⟨_, by assumption, h⟩
  · cases h
  · cases h

end Sys2Proof.Machine
end

