-- ==== Sys2Proof/Laws/Words.lean ====
section
/-! SUPPORT. From a row of one of the decoder's two maps to what every word of that row decodes to, and the bits of a word that its
fields leave out. -/

namespace Sys2Proof.Machine

theorem iWordsDecode_of_row {op : BitVec 6} {mk : Reg → Reg → BitVec 16 → Instr} (h0 : op ≠ 0)
    (h : opcodeMap.find? (fun row => row.1 == op) = some (op, readI mk)) : IWordsDecode op mk := by
  intro cfg iw e
  have e' : opcodeField iw = op := e
  exact decode_of_opcode (row := (op, readI mk)) (e' ▸ h0) (e' ▸ h)

theorem branchWordsDecode_of_row {op : BitVec 6} {mk : Reg → BitVec 16 → Instr} (h0 : op ≠ 0)
    (h : opcodeMap.find? (fun row => row.1 == op) = some (op, readBranch mk)) : BranchWordsDecode op mk := by
  intro cfg iw e
  have e' : opcodeField iw = op := e
  exact decode_of_opcode (row := (op, readBranch mk)) (e' ▸ h0) (e' ▸ h)

theorem jWordsDecode_of_row {op : BitVec 6} {mk : BitVec 26 → Instr} (h0 : op ≠ 0)
    (h : opcodeMap.find? (fun row => row.1 == op) = some (op, readJ mk)) : JWordsDecode op mk := by
  intro cfg iw e
  have e' : opcodeField iw = op := e
  exact decode_of_opcode (row := (op, readJ mk)) (e' ▸ h0) (e' ▸ h)

theorem rWordsDecode_of_row {func : BitVec 11} {mk : Reg → Reg → Reg → Instr} (hf : func.toNat < 64)
    (h : funcMap.find? (fun row => row.1 == func) = some (func, readR mk)) : RWordsDecode func mk := by
  intro cfg iw hk e0 e
  have e' : funcField iw = func := e
  have hs : ∀ x ∈ funcMap.map Prod.fst, x.toNat < 64 := by decide
  have h' : funcMap.find? (fun row => funcMatches cfg row.1 (funcField iw)) = some (func, readR mk) := by
    rw [← h, e']
    exact List.find?_congr fun row hr => funcMatches_small hk (hs _ (List.mem_map_of_mem hr)) hf
  exact decode_of_func (row := (func, readR mk)) e0 h'

/-- A branch word with zeros in the bits 20:16 that it ignores (30_encoding.md R74). -/
theorem encodeI_clearRs2 (iw : Word) : encodeI (opcodeField iw) (rs1Field iw) 0 (imm16Field iw) = iw &&& 0xFFE0FFFF := by
  conv_rhs => rw [← encodeI_fields iw]
  have h : (0xFFE0FFFF : Word) = (BitVec.allOnes 6 ++ BitVec.allOnes 5 ++ (0 : BitVec 5) ++ BitVec.allOnes 16 : BitVec (6 + 5 + 5 + 16)) := by
    decide
  unfold encodeI
  rw [h]
  change _ = _ &&& (BitVec.allOnes 6 ++ BitVec.allOnes 5 ++ (0 : BitVec 5) ++ BitVec.allOnes 16 : BitVec (6 + 5 + 5 + 16))
  rw [BitVec.and_append, BitVec.and_append, BitVec.and_append, BitVec.and_allOnes, BitVec.and_allOnes, BitVec.and_allOnes]
  simp [regBits]

/-- A `nop` word with zeros in the bits 25:0 that it ignores (30_encoding.md R74). -/
theorem encodeJ_clearOff (iw : Word) : encodeJ (opcodeField iw) 0 = iw &&& 0xFC000000 := by
  conv_rhs => rw [← encodeJ_fields iw]
  have h : (0xFC000000 : Word) = (BitVec.allOnes 6 ++ (0 : BitVec 26) : BitVec (6 + 26)) := by decide
  unfold encodeJ
  rw [h]
  change _ = _ &&& (BitVec.allOnes 6 ++ (0 : BitVec 26) : BitVec (6 + 26))
  rw [BitVec.and_append, BitVec.and_allOnes]
  simp

end Sys2Proof.Machine
end

