-- ==== Sys2Proof/Tests/Slice0.lean ====
section
/-! SUPPORT. The package's own tests. Expected values come from spec/95_test_vectors.md (the section is named at each test) or from the
example of the rule named; the last part shows, for every statement with hypotheses, states and operands that meet them. -/

namespace Sys2Proof.Tests

open Sys2Proof.Machine

/-! ### Helpers: a small state, and what a step makes of it -/

/-- The defaults with 64 KiB of data memory, as 95_test_vectors.md section 2.5 takes it. -/
def cfg : Config := { Params.default with imemSize := 0x10000, dmemSize := 0x10000 }

/-- A state at `A` with some registers and data words, and nothing loaded. -/
def bare (c : Config) (A : Word) (regs : List (Reg × Word)) (words : List (Nat × Word)) : State :=
  let s := { State.reset with pc := A, cfg := c }
  words.foldl (fun s p => s.memWrite p.1 p.2) (regs.foldl (fun s p => s.setReg p.1 p.2) s)

/-- The same with an instruction word at `A`. -/
def at' (c : Config) (A iw : Word) (regs : List (Reg × Word)) (words : List (Nat × Word)) : State :=
  (bare c A regs words).placeAtPc iw

/-- What an outcome's next state shows, if it has one. -/
def seen {α : Type} (f : State → α) : Host.Outcome State Fault Refusal → Option α
  | .next t => some (f t)
  | .fault _ => none
  | .refused _ => none

/-- Why an outcome is refused, if it is. -/
def why : Host.Outcome State Fault Refusal → Option Refusal
  | .next _ => none
  | .fault _ => none
  | .refused q => some q

/-- Register 1 and `pc` after one step at 0x100 with `x[2]` and `x[3]` set, and whether `x[2]`, `x[3]` are as before
(95_test_vectors.md sections 2.2, 2.3). -/
def alu (iw x2 x3 : Word) : Option (Word × Word × Bool) :=
  seen (fun t => (t.reg 1, t.pc, t.reg 2 == x2 && t.reg 3 == x3)) (step (at' cfg 0x100 iw [(2, x2), (3, x3)] []))

/-- `pc` and register 31 after one step at `A` with `x[1]` set and `x[31]` = 0xAAAAAAAA (95_test_vectors.md section 2.6). -/
def goes (iw A x1 : Word) : Option (Word × Word) :=
  seen (fun t => (t.pc, t.reg 31)) (step (at' cfg A iw [(1, x1), (31, 0xAAAAAAAA)] []))

/-! ### Well-formedness: an ill-formed term for each check -/

theorem test_wf_default : Params.default.wf = true ∧ cfg.wf = true := by decide
theorem test_wf_sra_not_admitted : (Instr.sra 1 2 3).wf { cfg with admitSra := false } = false := by decide
theorem test_wf_srai_not_admitted : (Instr.srai 1 2 3).wf { cfg with admitSra := false } = false := by decide
theorem test_wf_resetPc_misaligned : ({ cfg with resetPc := 2 } : Config).wf = false := by decide
theorem test_wf_haltPc_misaligned : ({ cfg with haltPc := some 0x102 } : Config).wf = false := by decide
theorem test_wf_funcMatchBits : ({ cfg with funcMatchBits := 5 } : Config).wf = false ∧
    ({ cfg with funcMatchBits := 12 } : Config).wf = false := by decide
theorem test_wf_sraFunc_collides : ({ cfg with sraFunc := 0x20 } : Config).wf = false ∧
    ({ cfg with funcMatchBits := 6, sraFunc := 0x060 } : Config).wf = false := by decide
theorem test_wf_sraiOpcode_collides : ({ cfg with sraiOpcode := 0 } : Config).wf = false ∧
    ({ cfg with sraiOpcode := 0x2b } : Config).wf = false := by decide
theorem test_wf_memories_fit : ({ cfg with imemBase := 4, imemSize := 2 ^ 32 } : Config).wf = false ∧
    ({ cfg with dmemBase := 4, dmemSize := 2 ^ 32 } : Config).wf = false := by decide

/-! ### Decoding: words of 95_test_vectors.md sections 1.1, 1.2 and 2.1 -/

theorem test_decode_ialu_1 : decode cfg 0x2041FFFB = .ok (.addi 1 2 0xFFFB) ∧ decode cfg 0x2927FFE2 = .ok (.subi 7 9 0xFFE2) ∧
    decode cfg 0x31340008 = .ok (.andi 20 9 8) ∧ decode cfg 0x34650156 = .ok (.ori 5 3 342) ∧
    decode cfg 0x39860001 = .ok (.xori 6 12 1) := by decide
theorem test_decode_ialu_2 : decode cfg 0x50240005 = .ok (.slli 4 1 5) ∧ decode cfg 0x58A70002 = .ok (.srli 7 5 2) ∧
    decode cfg 0x5C410003 = .ok (.srai 1 2 3) ∧ decode cfg 0x64A30004 = .ok (.snei 3 5 4) ∧
    decode cfg 0x7061FFFC = .ok (.slei 1 3 0xFFFC) ∧ decode cfg 0x76890006 = .ok (.sgei 9 20 6) := by decide
theorem test_decode_memory : decode cfg 0x8D13003F = .ok (.lw 19 8 63) ∧ decode cfg 0xAC410001 = .ok (.sw 2 1 1) ∧
    decode cfg 0x8C220004 = .ok (.lw 2 1 4) ∧ decode cfg 0xAC220004 = .ok (.sw 1 2 4) := by decide
theorem test_decode_register_1 : decode cfg 0x028A4820 = .ok (.add 9 20 10) ∧ decode cfg 0x018F3022 = .ok (.sub 6 12 15) ∧
    decode cfg 0x006A4824 = .ok (.and 9 3 10) ∧ decode cfg 0x00642825 = .ok (.or 5 3 4) ∧
    decode cfg 0x018F3026 = .ok (.xor 6 12 15) := by decide
theorem test_decode_register_2 : decode cfg 0x00430804 = .ok (.sll 1 2 3) ∧ decode cfg 0x00E82806 = .ok (.srl 5 7 8) ∧
    decode cfg 0x00430807 = .ok (.sra 1 2 3) ∧ decode cfg 0x00430829 = .ok (.sne 1 2 3) ∧
    decode cfg 0x0044682C = .ok (.sle 13 2 4) ∧ decode cfg 0x004A082D = .ok (.sge 1 2 10) := by decide
theorem test_decode_control : decode cfg 0x1180FFEE = .ok (.beqz 12 0xFFEE) ∧ decode cfg 0x1440FFE2 = .ok (.bnez 2 0xFFE2) ∧
    decode cfg 0x0BFFFF3C = .ok (.j 0x3FFFF3C) ∧ decode cfg 0x0FFFFF3C = .ok (.jal 0x3FFFF3C) ∧
    decode cfg 0x54000000 = .ok .nop := by decide
theorem test_decode_ignored_bits : decode cfg 0x57FFFFFF = .ok .nop ∧ decode cfg 0x103F0008 = .ok (.beqz 1 8) := by decide
theorem test_decode_undefined_func : [0x00000000, 0x00430860, 0x00430C20, 0x00430821, 0x0043082A].map
    (fun w : Word => (decode cfg w).toOption) = [none, none, none, none, none] := by decide
theorem test_decode_undefined_opcode : [0xFFFFFFFF, 0x04000000, 0x3C011234, 0x4BE00000, 0x24410001, 0x80410000].map
    (fun w : Word => (decode cfg w).toOption) = [none, none, none, none, none, none] := by decide
theorem test_decode_sra_not_admitted : decode { cfg with admitSra := false } 0x00430807 = .error (.undefinedFunc 7) ∧
    decode { cfg with admitSra := false } 0x5C410003 = .error (.undefinedOpcode 0x17) := by decide
theorem test_decode_six_func_bits : decode { cfg with funcMatchBits := 6 } 0x00430860 = .ok (.add 1 2 3) := by decide
theorem test_decode_bytes : decodeBytes cfg [0x20, 0x41, 0xFF, 0xFB, 0x54] = .ok (.addi 1 2 0xFFFB, [0x54]) ∧
    decodeBytes { cfg with byteOrder := .little } [0xFB, 0xFF, 0x41, 0x20] = .ok (.addi 1 2 0xFFFB, []) ∧
    decodeBytes cfg [0x20, 0x41, 0xFF] = .error .truncated := by decide

/-! ### The I-type ALU instructions (95_test_vectors.md section 2.2) -/

theorem test_addi : alu 0x2041FFFB 7 0 = some (2, 0x104, true) ∧ alu 0x20410001 0x7FFFFFFF 0 = some (0x80000000, 0x104, true) := by
  decide
theorem test_subi : alu 0x2841FFE2 0 0 = some (0x1E, 0x104, true) ∧ alu 0x28418000 0 0 = some (0x8000, 0x104, true) := by decide
theorem test_andi : alu 0x3041FFFF 0xFFFFFFFF 0 = some (0xFFFF, 0x104, true) ∧
    alu 0x30418000 0xFFFF8000 0 = some (0x8000, 0x104, true) := by decide
theorem test_ori : alu 0x3441FFFF 0x12340000 0 = some (0x1234FFFF, 0x104, true) ∧ alu 0x34418000 0 0 = some (0x8000, 0x104, true) := by
  decide
theorem test_xori : alu 0x3841FFFF 0xFFFFFFFF 0 = some (0xFFFF0000, 0x104, true) ∧ alu 0x38418000 0x8000 0 = some (0, 0x104, true) := by
  decide
theorem test_slli : alu 0x5041001F 3 0 = some (0x80000000, 0x104, true) ∧ alu 0x50410020 1 0 = some (0, 0x104, true) := by decide
theorem test_srli : alu 0x58410002 0x80000000 0 = some (0x20000000, 0x104, true) ∧
    alu 0x58410020 0x80000000 0 = some (0, 0x104, true) := by decide
theorem test_srai : alu 0x5C410003 0xFFFFFF9C 0 = some (0xFFFFFFF3, 0x104, true) ∧
    alu 0x5C410020 0x80000000 0 = some (0xFFFFFFFF, 0x104, true) := by decide
theorem test_snei : alu 0x6441FFFF 0xFFFFFFFF 0 = some (0, 0x104, true) ∧ alu 0x6441FFFF 0xFFFF 0 = some (1, 0x104, true) := by decide
theorem test_slei : alu 0x70410000 0x80000000 0 = some (1, 0x104, true) ∧ alu 0x7041FFFC 0 0 = some (0, 0x104, true) := by decide
theorem test_sgei : alu 0x74410000 0x80000000 0 = some (0, 0x104, true) ∧ alu 0x74418000 0xFFFF8000 0 = some (1, 0x104, true) := by
  decide
theorem test_same_register : seen (fun t => t.reg 2) (step (at' cfg 0x100 0x20420001 [(2, 0xA)] [])) = some 0xB := by decide
theorem test_slli_five_bit_count : seen (fun t => t.reg 1)
    (step (at' { cfg with shiftAmountBits := 5 } 0x100 0x50410021 [(2, 0xFFFFFFFF)] [])) = some 0xFFFFFFFE := by decide

/-! ### The R-type instructions (95_test_vectors.md section 2.3) -/

theorem test_add : alu 0x00430820 0x7FFFFFFF 1 = some (0x80000000, 0x104, true) ∧
    alu 0x00430820 0xFFFFFFFF 1 = some (0, 0x104, true) := by decide
theorem test_sub : alu 0x00430822 5 7 = some (0xFFFFFFFE, 0x104, true) ∧
    alu 0x00430822 0 0x80000000 = some (0x80000000, 0x104, true) := by decide
theorem test_and : alu 0x00430824 0xFF00FF00 0x0FF00FF0 = some (0x0F000F00, 0x104, true) := by decide
theorem test_or : alu 0x00430825 0xFF00FF00 0x0FF00FF0 = some (0xFFF0FFF0, 0x104, true) := by decide
theorem test_xor : alu 0x00430826 0xFF00FF00 0x0FF00FF0 = some (0xF0F0F0F0, 0x104, true) := by decide
theorem test_sll : alu 0x00430804 0xFFFFFFFF 4 = some (0xFFFFFFF0, 0x104, true) ∧
    alu 0x00430804 0xFFFFFFFF 0xFFFFFFFF = some (0, 0x104, true) := by decide
theorem test_srl : alu 0x00430806 0xFFFFFFFF 4 = some (0x0FFFFFFF, 0x104, true) ∧
    alu 0x00430806 0x80000000 0x20 = some (0, 0x104, true) := by decide
theorem test_sra : alu 0x00430807 0xFFFFFF9C 3 = some (0xFFFFFFF3, 0x104, true) ∧
    alu 0x00430807 0x7FFFFFFF 0xFFFFFFFF = some (0, 0x104, true) := by decide
theorem test_sne : alu 0x00430829 0 0x80000000 = some (1, 0x104, true) ∧ alu 0x00430829 5 5 = some (0, 0x104, true) := by decide
theorem test_sle : alu 0x0043082C 0x80000000 0x7FFFFFFF = some (1, 0x104, true) ∧
    alu 0x0043082C 0 0xFFFFFFFF = some (0, 0x104, true) := by decide
theorem test_sge : alu 0x0043082D 0 0xFFFFFFFF = some (1, 0x104, true) ∧
    alu 0x0043082D 0x80000000 0x7FFFFFFF = some (0, 0x104, true) := by decide
theorem test_same_register_thrice : seen (fun t => t.reg 5) (step (at' cfg 0x100 0x00A52820 [(5, 0x40000001)] [])) =
    some 0x80000002 := by decide

/-! ### Register 0 (95_test_vectors.md section 2.4) -/

theorem test_r0_discards : seen (fun t => (t.reg 0, t.pc)) (step (at' cfg 0x100 0x20400005 [(2, 7)] [])) = some (0, 0x104) := by decide
theorem test_r0_ordinary : seen (fun t => t.reg 0) (step (at' { cfg with r0Hardwired := false } 0x100 0x20400005 [(2, 7)] [])) =
    some 0xC := by decide

/-! ### Loads and stores (95_test_vectors.md section 2.5) -/

theorem test_lw : seen (fun t => (t.reg 2, t.pc)) (step (at' cfg 0x100 0x8C22FFFC [(1, 0x204)] [(0x200, 0x11223344)])) =
    some (0x11223344, 0x104) := by decide
theorem test_lw_wraps : seen (fun t => t.reg 2) (step (at' cfg 0x100 0x8C220008 [(1, 0xFFFFFFFC)] [(4, 0x77777777)])) =
    some 0x77777777 := by decide
theorem test_sw : seen (fun t => (t.dmem, t.pc)) (step (at' cfg 0x100 0xAC220000 [(1, 0x300), (2, 0xCAFEBABE)] [])) =
    some ([(0x300, 0xCA), (0x301, 0xFE), (0x302, 0xBA), (0x303, 0xBE)], 0x104) := by decide
theorem test_sw_little : seen (fun t => t.dmem)
    (step (at' { cfg with byteOrder := .little } 0x100 0xAC220000 [(1, 0x300), (2, 0xCAFEBABE)] [])) =
    some [(0x300, 0xBE), (0x301, 0xBA), (0x302, 0xFE), (0x303, 0xCA)] := by decide

/-! ### Branches, jumps, `nop` (95_test_vectors.md sections 2.6, 2.7) -/

theorem test_beqz : goes 0x1020FEF8 0x100 0 = some (0xFFFFFFFC, 0xAAAAAAAA) ∧ goes 0x10200008 0x100 0x80000000 = some (0x104, 0xAAAAAAAA) := by
  decide
theorem test_bnez : goes 0x14208000 0x8000 1 = some (4, 0xAAAAAAAA) ∧ goes 0x1420FFF4 0x20 0 = some (0x24, 0xAAAAAAAA) := by decide
theorem test_j : goes 0x09FFFFFC 0 0 = some (0x02000000, 0xAAAAAAAA) ∧ goes 0x0A000000 0x02000000 0 = some (4, 0xAAAAAAAA) := by decide
theorem test_jal : goes 0x0FFFFEFC 0x100 0 = some (0, 0x104) ∧ goes 0x0C000020 0x100 0 = some (0x124, 0x104) := by decide
theorem test_jal_other_link : seen (fun t => t.reg 31) (step (at' { cfg with linkOffset := 8 } 0x100 0x0C000020 [] [])) = some 0x108 := by
  decide
theorem test_nop_other_step : seen (fun t => t.pc) (step (at' { cfg with pcStep := 8 } 0x100 0x54000000 [] [])) = some 0x108 := by decide
theorem test_nop : goes 0x55555555 0x100 0 = some (0x104, 0xAAAAAAAA) := by decide

/-! ### Refusals (95_test_vectors.md sections 2.5, 2.8) -/

theorem test_refuse_misalignedFetch : why (step (at' { cfg with haltPc := some 0x102 } 0x102 0x54000000 [] [])) =
    some (.misalignedFetch 0x102) := by decide
theorem test_refuse_fetchOutOfRange : why (step (bare cfg 0x40 [] [])) = some (.fetchOutOfRange 0x40) := by decide
theorem test_refuse_undefinedEncoding : why (step (at' cfg 0x10 0 [] [])) = some (.undefinedEncoding 0x10 0) := by decide
theorem test_refuse_misalignedData : why (step (at' cfg 0x100 0x8C220001 [(1, 0xFFFE)] [])) = some (.misalignedData 0xFFFF) := by decide
theorem test_refuse_dataOutOfRange : why (step (at' cfg 0x100 0xAC220004 [(1, 0xFFFC)] [])) = some (.dataOutOfRange 0x10000) := by decide

/-! ### The host's two functions, at the state after reset -/

theorem test_tableWord : decodeTableWord 32 0x2041FFFB = some (.addi 1 2 0xFFFB) ∧ decodeTableWord 32 0 = none := by decide
theorem test_fetchWord : seen (fun t => (t.reg 1, t.pc)) (step (State.reset.withFetchWord 32 0x2001FFFF)) = some (0xFFFFFFFF, 4) := by decide

/-! ### Assembly (lines of 95_test_vectors.md sections 1.1 and 1.2 with their words) -/

theorem test_assemble_ialu : (assembleLine [] 0 "addi r1,r2, -5").map (encode cfg) = some 0x2041FFFB ∧
    (assembleLine [] 0 "ori r5, r3, 342").map (encode cfg) = some 0x34650156 := by decide
theorem test_assemble_memory : (assembleLine [] 0 "lw r19, +63(r8)").map (encode cfg) = some 0x8D13003F ∧
    (assembleLine [] 0 "sw 21(r13),r6").map (encode cfg) = some 0xADA60015 := by decide
theorem test_assemble_register : (assembleLine [] 0 "add r9,r20,r10").map (encode cfg) = some 0x028A4820 := by decide
theorem test_assemble_branch : (assembleLine [] 16 "beqz r12, 2").map (encode cfg) = some 0x1180FFEE ∧
    (assembleLine [] 20 "bnez r2, -6").map (encode cfg) = some 0x1440FFE2 := by decide
theorem test_assemble_symbol : (assembleLine [("skip", 8)] 0 "jal skip").map (encode cfg) = some 0x0C000004 ∧
    (assembleLine [] 0 "nop").map (encode cfg) = some 0x54000000 := by decide
/-- The model's choice, log 17: symbols are case-sensitive. -/
theorem test_assemble_symbol_case : assembleLine [("skip", 8)] 0 "jal Skip" = none ∧
    (assembleLine [("skip", 8), ("Skip", 12)] 0 "jal Skip").map (encode cfg) = some 0x0C000008 := by decide
theorem test_assemble_spaces : assembleLine [] 0 "nop " = some .nop ∧ assembleLine [] 0 "add   r9,r20,  r10" = some (.add 9 20 10) ∧
    assembleLine [] 0 "addi r1,r2,5 " = none := by decide
theorem test_assemble_rejects : assembleLine [] 0 "addi r1,r2,32768" = none ∧ assembleLine [] 0 "andi r1,r2,-1" = none ∧
    assembleLine [] 0 "add r32,r1,r1" = none := by decide

/-! ### Witnesses: what meets the hypotheses of the statements. One word of every row, for the statements of the instructions -/

theorem test_witness_iWords_1 : (0x2041FFFB : Word).extractLsb' 26 6 = 0x08 ∧ (0x2927FFE2 : Word).extractLsb' 26 6 = 0x0a ∧
    (0x31340008 : Word).extractLsb' 26 6 = 0x0c ∧ (0x34650156 : Word).extractLsb' 26 6 = 0x0d ∧
    (0x39860001 : Word).extractLsb' 26 6 = 0x0e ∧ (0x50240005 : Word).extractLsb' 26 6 = 0x14 ∧
    (0x58A70002 : Word).extractLsb' 26 6 = 0x16 := by decide
theorem test_witness_iWords_2 : (0x64A30004 : Word).extractLsb' 26 6 = 0x19 ∧ (0x7061FFFC : Word).extractLsb' 26 6 = 0x1c ∧
    (0x76890006 : Word).extractLsb' 26 6 = 0x1d ∧ (0x8D13003F : Word).extractLsb' 26 6 = 0x23 ∧
    (0xAC410001 : Word).extractLsb' 26 6 = 0x2b := by decide
theorem test_witness_branchAndJumpWords : (0x1180FFEE : Word).extractLsb' 26 6 = 0x04 ∧ (0x1440FFE2 : Word).extractLsb' 26 6 = 0x05 ∧
    (0x0BFFFF3C : Word).extractLsb' 26 6 = 0x02 ∧ (0x0FFFFF3C : Word).extractLsb' 26 6 = 0x03 := by decide
theorem test_witness_nopWords : 0x54000000 ≤ (0x54000000 : Word).toNat ∧ (0x57FFFFFF : Word).toNat ≤ 0x57FFFFFF := by decide

/-- The premises of `RWordsDecode` for the ten rows the source gives, at both ends of the range of `FUNC_MATCH_BITS`. -/
theorem test_witness_rWords : 6 ≤ cfg.funcMatchBits ∧ 6 ≤ ({ cfg with funcMatchBits := 6 } : Config).funcMatchBits ∧
    [0x028A4820, 0x018F3022, 0x006A4824, 0x00642825, 0x018F3026, 0x00430804, 0x00E82806, 0x00430829, 0x0044682C, 0x004A082D].map
      (fun w : Word => (w.extractLsb' 26 6, w.extractLsb' 0 11)) =
    [(0, 0x20), (0, 0x22), (0, 0x24), (0, 0x25), (0, 0x26), (0, 0x04), (0, 0x06), (0, 0x29), (0, 0x2c), (0, 0x2d)] := by decide

theorem test_witness_sra : cfg.wf = true ∧ cfg.admitSra = true ∧ (0x00430807 : Word).extractLsb' 26 6 = 0 ∧
    (0x00430807 : Word).extractLsb' 0 11 = cfg.sraFunc := by decide
theorem test_witness_srai : cfg.wf = true ∧ cfg.admitSra = true ∧ (0x5C410003 : Word).extractLsb' 26 6 = cfg.sraiOpcode := by decide

/-! Encodings -/

theorem test_witness_decodeOfEncode : cfg.wf = true ∧ (Instr.srai 31 0 0xFFFF).wf cfg = true ∧ (Instr.j 0x2000000).wf cfg = true := by decide

/-- One word for each clause of `EncodeOfDecode`. -/
theorem test_witness_encodeOfDecode : cfg.wf = true ∧ cfg.funcMatchBits = 11 ∧ decode cfg 0x103F0008 = .ok (.beqz 1 8) ∧
    decode cfg 0x143F0008 = .ok (.bnez 1 8) ∧ decode cfg 0x57FFFFFF = .ok .nop ∧ decode cfg 0xFFFFFFFF = .error (.undefinedOpcode 0x3f) ∧
    decode cfg 0x0BFFFFFC = .ok (.j 0x3FFFFFC) := by decide

/-- An undefined OPCODE beside a defined one and an undefined FUNC beside a defined one, fetched. -/
theorem test_witness_undefinedEncodings : cfg.wf = true ∧ cfg.funcMatchBits = 11 ∧
    (at' cfg 0x10 0x0000002E [] []).pc.toNat % 4 = 0 ∧ (at' cfg 0x10 0x0000002E [] []).cfg.haltPc ≠ some (at' cfg 0x10 0x0000002E [] []).pc ∧
    (at' cfg 0x10 0x0000002E [] []).ifetch? 0x10 = some 0x0000002E ∧ decode cfg 0x0000002E = .error (.undefinedFunc 0x2e) ∧
    decode cfg 0x78000000 = .error (.undefinedOpcode 0x1e) := by decide

theorem test_witness_unusedBits_branch : (0x103F0008 : Word).extractLsb' 26 6 = 0x04#6 ∧
    (0x103F0008 : Word) &&& 0xFFE0FFFF = 0x10200008 &&& 0xFFE0FFFF := by decide
theorem test_witness_unusedBits_nop : (0x57FFFFFF : Word).extractLsb' 26 6 = 0x15#6 ∧
    (0x57FFFFFF : Word) &&& 0xFC000000 = 0x54000000 &&& 0xFC000000 := by decide
theorem test_witness_unusedBits_none : cfg.wf = true ∧ cfg.funcMatchBits = 11 ∧ (0x0BFFFFFC : Word).extractLsb' 26 6 = 0x02#6 ∧
    decode cfg 0x0BFFFFFC = .ok (.j 0x3FFFFFC) ∧ (0x00430820 : Word).extractLsb' 26 6 = 0 ∧ decode cfg 0x00430820 = .ok (.add 1 2 3) := by
  decide

/-! Data accesses: every clause at the edges of the data memory, which is 0x100 to 0x1FF here -/

/-- A data memory that does not start at 0. -/
def small : Config := { cfg with dmemBase := 0x100, dmemSize := 0x100 }

/-- The premises and the three branches of `LwLoadsTheAlignedWord` and `SwStoresTheAlignedWord`: aligned at either end, misaligned,
below and above. -/
theorem test_witness_aligned_access : small.dmemAddressing = .byte ∧ small.dmemMisaligned = .refuse ∧
    [0x100, 0x1FC, 0x1FD, 0xFC, 0x200].map (fun a : Word => why (exec (.sw 1 2 0) (bare small 0 [(1, a)] []))) =
      [none, none, some (.misalignedData 0x1FD), some (.dataOutOfRange 0xFC), some (.dataOutOfRange 0x200)] ∧
    [0x100, 0x1FC, 0x1FD, 0xFC, 0x200].map (fun a : Word => why (exec (.lw 2 1 0) (bare small 0 [(1, a)] []))) =
      [none, none, some (.misalignedData 0x1FD), some (.dataOutOfRange 0xFC), some (.dataOutOfRange 0x200)] := by decide

/-- `DMEM_ADDRESSING` = word. -/
theorem test_witness_word_access : ({ small with dmemAddressing := .word } : Config).dmemAddressing = .word ∧
    [0xFF, 0x101, 0x1FC, 0x1FD].map (fun a : Word => why (exec (.sw 1 2 0) (bare { small with dmemAddressing := .word } 0 [(1, a)] []))) =
      [some (.dataOutOfRange 0xFF), none, none, some (.dataOutOfRange 0x1FD)] ∧
    why (exec (.lw 2 1 0) (bare { small with dmemAddressing := .word } 0 [(1, 0x1FC)] [])) = none := by decide

/-- `DMEM_MISALIGNED` = ignore_low_bits: the range is that of the address used. -/
theorem test_witness_ignoreLowBits_access : ({ small with dmemMisaligned := .ignoreLowBits } : Config).dmemAddressing = .byte ∧
    [0xFF, 0x100, 0x1FF, 0x201].map
      (fun a : Word => why (exec (.sw 1 2 0) (bare { small with dmemMisaligned := .ignoreLowBits } 0 [(1, a)] []))) =
      [some (.dataOutOfRange 0xFF), none, none, some (.dataOutOfRange 0x201)] ∧
    seen (fun t => t.reg 2) (exec (.lw 2 1 0) (bare { small with dmemMisaligned := .ignoreLowBits } 0 [(1, 0x1FF)] [(0x1FC, 0x01020304)])) =
      some 0x01020304 := by decide

/-- `DMEM_MISALIGNED` = split: the four bytes from the address. -/
theorem test_witness_split_access : ({ small with dmemMisaligned := .split } : Config).dmemMisaligned = .split ∧
    [0xFF, 0x101, 0x1FC, 0x1FD].map
      (fun a : Word => why (exec (.sw 1 2 0) (bare { small with dmemMisaligned := .split } 0 [(1, a)] []))) =
      [some (.dataOutOfRange 0xFF), none, none, some (.dataOutOfRange 0x1FD)] ∧
    seen (fun t => t.reg 2)
      (exec (.lw 2 1 0) (bare { small with dmemMisaligned := .split } 0 [(1, 0x101)] [(0x100, 0x01020304), (0x104, 0x05060708)])) =
      some 0x02030405 := by decide

/-! Fetch, step, runs -/

theorem test_witness_misalignedFetch : (bare cfg 0x102 [] []).pc.toNat % 4 ≠ 0 ∧ (offsetOf (.beqz 1 6)).isSome = true ∧
    seen (fun t => t.pc.toNat % 4) (exec (.beqz 1 6) (bare cfg 0x100 [(1, 0)] [])) = some 2 := by decide

/-- The premises of `FetchOutOfRangeIsRefused` but for the way out of the program, in one state. -/
abbrev fetches (s : State) : Prop := s.pc.toNat % 4 = 0 ∧ s.cfg.haltPc ≠ some s.pc

/-- A state of which the launch filled three of the four bytes at `pc`. -/
def partly : State := { bare cfg 0 [] [] with imem := [(0, 0x54), (1, 0), (2, 0)] }

/-- Each way to leave the program: below, above, and at a word of which one byte is missing. -/
theorem test_witness_fetchOutOfRange :
    (fetches (bare { cfg with imemBase := 8 } 4 [] []) ∧ (bare { cfg with imemBase := 8 } 4 [] []).pc.toNat < 8) ∧
    (fetches (bare { cfg with imemSize := 16 } 16 [] []) ∧
      (bare { cfg with imemSize := 16 } 16 [] []).cfg.imemBase + 16 ≤ (bare { cfg with imemSize := 16 } 16 [] []).pc.toNat + 3) ∧
    (fetches partly ∧ partly.imem.byte? (partly.pc.toNat + 3) = none) := by decide

theorem test_witness_runOver : (bare { cfg with haltPc := some 0x20 } 0x20 [] []).runOver := by decide

/-- Four bytes that decode, in either byte order. -/
theorem test_witness_stepRuns :
    (at' cfg 0x100 0x20410005 [] []).imem = [(0x100, 0x20), (0x101, 0x41), (0x102, 0), (0x103, 5)] ∧
    decode cfg (0x20#8 ++ 0x41#8 ++ 0#8 ++ 5#8) = .ok (.addi 1 2 5) ∧
    (at' { cfg with byteOrder := .little } 0x100 0x20410005 [] []).imem = [(0x100, 5), (0x101, 0), (0x102, 0x41), (0x103, 0x20)] ∧
    cfg.imemBase ≤ 0x100 ∧ 0x100 + 3 < cfg.imemBase + cfg.imemSize ∧ cfg.haltPc = none ∧ cfg.branchDelaySlots = 0 := by decide

/-- A chip with one delay slot, a `j` over one word at 0 and an `addi` in its slot. -/
def slotted : State :=
  State.launch { cfg with branchDelaySlots := 1 } Params.resetRegs [0x08000008, 0x20010007] []

theorem test_witness_oneDelaySlot : slotted.cfg.branchDelaySlots = 1 ∧ slotted.pending = [none] ∧
    slotted.fetchNext = .instr (.j 8) ∧ (offsetOf (.j 8)).isSome = true ∧ slotted.transfers (.j 8) = true ∧
    seen (fun t => (t.pc, t.pending, t.fetchNext, t.transfers (.addi 1 0 7))) (step slotted) =
      some (4, [some 12], .instr (.addi 1 0 7), false) := by decide
theorem test_witness_oneDelaySlot_second :
    seen (fun t => seen (fun u => (u.pc, u.pending, u.reg 1)) (step t)) (step slotted) = some (some (12, [none], 7)) := by decide

theorem test_witness_placedWord : State.reset.pc.toNat % 4 = 0 ∧ State.reset.cfg.branchDelaySlots = 0 ∧
    decode State.reset.cfg (BitVec.ofNat 32 0x20410005) = .ok (.addi 1 2 5) := by decide

/-! Launch and invariants -/

theorem test_witness_launch : cfg.r0Hardwired = true ∧ ({ cfg with r0Hardwired := false } : Config).r0Hardwired = false := by decide

/-- A two-word program at 8, in an instruction memory of its own size. -/
def twoWords : State := State.launch { cfg with imemBase := 8, imemSize := 8 } Params.resetRegs [0x54000000, 0x0BFFFFFC] []

/-- Both ends of the program, the multiples of 4 beside them, and an address inside that is none. -/
theorem test_witness_launchedProgram : 4 * [0x54000000#32, 0x0BFFFFFC#32].length ≤ twoWords.cfg.imemSize ∧ twoWords.cfg.imemBase % 4 = 0 ∧
    [4, 8, 12, 13, 16].map twoWords.ifetch? = [none, some 0x54000000, some 0x0BFFFFFC, none, none] := by decide

theorem test_witness_launchInvariant : cfg.wf = true ∧ Memory.wf [(0x100, 0x11), (0x101, 0x22)] := by decide

/-- A state that meets the invariant and whose step answers a next state: a store. -/
theorem test_witness_stepKeeps : (at' cfg 0x100 0xAC220000 [(1, 0x300), (2, 5)] [(0x200, 7)]).Inv ∧
    seen (fun t => t.pc) (step (at' cfg 0x100 0xAC220000 [(1, 0x300), (2, 5)] [(0x200, 7)])) = some 0x104 := by decide

theorem test_witness_programConstant : ∃ t, Host.Core.run Sys2Proof.core 1 (at' cfg 0x100 0xAC220000 [(1, 0x300), (2, 5)] []) = .next t :=
  ⟨_, rfl⟩

/-! Rules over all instructions -/

theorem test_witness_registerZero : cfg.r0Hardwired = true ∧ destReg (.lw 0 1 0) = some 0 ∧
    seen (fun t => t.pc) (exec (.lw 0 1 0) (bare cfg 0x100 [(1, 0x40)] [(0x40, 0x55)])) = some 0x104 ∧
    ({ cfg with r0Hardwired := false } : Config).r0Hardwired = false ∧
    why (exec (.lw 0 1 0) (bare cfg 0x100 [(1, 0x41)] [])) = some (.misalignedData 0x41) := by decide

/-- Two states that differ in a register `add r1,r2,r3` does not read. -/
theorem test_witness_registersRead : (bare cfg 0 [(2, 5), (3, 7)] []).reg 4 ≠ (bare cfg 0 [(2, 5), (3, 7), (4, 9)] []).reg 4 ∧
    (∀ r ∈ readSet (.add 1 2 3), (bare cfg 0 [(2, 5), (3, 7), (4, 9)] []).reg r = (bare cfg 0 [(2, 5), (3, 7)] []).reg r) ∧
    (bare cfg 0 [(2, 5), (3, 7), (4, 9)] []).dmem = (bare cfg 0 [(2, 5), (3, 7)] []).dmem ∧
    destReg (.add 1 2 3) ≠ some 4 ∧ seen (fun t => t.reg 1) (exec (.add 1 2 3) (bare cfg 0 [(2, 5), (3, 7)] [])) = some 12 := by decide

/-- Every kind of refusal is answered by some step, in the default data memory. -/
theorem test_witness_refusals : cfg.dmemAddressing = .byte ∧ cfg.dmemMisaligned = .refuse ∧
    why (step (bare cfg 2 [] [])) = some (.misalignedFetch 2) ∧
    why (step (bare cfg 4 [] [])) = some (.fetchOutOfRange 4) ∧ why (step (at' cfg 4 0xFFFFFFFF [] [])) = some (.undefinedEncoding 4 0xFFFFFFFF) ∧
    why (step (at' cfg 4 0x8C22003F [(1, 0x100)] [])) = some (.misalignedData 0x13F) ∧
    why (step (at' cfg 4 0x8C220000 [(1, 0x10000)] [])) = some (.dataOutOfRange 0x10000) := by decide

/-- Every other data memory refuses some access, just below its first address. -/
theorem test_witness_otherRefusals :
    [{ small with dmemAddressing := .word }, { small with dmemMisaligned := .ignoreLowBits }, { small with dmemMisaligned := .split }].map
      (fun c : Config => (decide (c.dmemAddressing = .byte ∧ c.dmemMisaligned = .refuse), why (step (at' c 4 0x8C220000 [(1, 0xFF)] [])))) =
    [(false, some (.dataOutOfRange 0xFF)), (false, some (.dataOutOfRange 0xFF)), (false, some (.dataOutOfRange 0xFF))] := by decide

/-- A store and a load of the same address, and a load of the next word. -/
theorem test_witness_loadAfterStore : ∃ t, exec (.sw 1 2 0) (bare cfg 0 [(1, 0x300), (2, 5)] [(0x304, 9)]) = .next t ∧
    addressOf t 1 0 = addressOf (bare cfg 0 [(1, 0x300), (2, 5)] [(0x304, 9)]) 1 0 :=
  ⟨_, rfl, by decide⟩
theorem test_witness_storeLeaves : ∃ t u, exec (.sw 1 2 0) (bare cfg 0 [(1, 0x300), (2, 5)] [(0x304, 9)]) = .next t ∧
    addressOf (bare cfg 0 [(1, 0x300), (2, 5)] [(0x304, 9)]) 1 4 ≠ addressOf (bare cfg 0 [(1, 0x300), (2, 5)] [(0x304, 9)]) 1 0 ∧
    exec (.lw 3 1 4) (bare cfg 0 [(1, 0x300), (2, 5)] [(0x304, 9)]) = .next u ∧ u.reg 3 = 9 ∧
    cfg.dmemAddressing = .byte ∧ cfg.dmemMisaligned = .refuse :=
  ⟨_, _, rfl, by decide, rfl, by decide, by decide, by decide⟩

theorem test_witness_targets : seen (fun t => t.pc) (exec (.add 1 2 3) (bare cfg 0x100 [] [])) = some 0x104 ∧
    seen (fun t => t.pc) (exec (.jal 0x20) (bare cfg 0x100 [] [])) = some 0x124 := by decide
theorem test_witness_alignedOffsets : (bare cfg 0x100 [] []).pc.toNat % 4 = 0 ∧ cfg.pcStep.toNat % 4 = 0 ∧
    cfg.targetBaseOffset.toNat % 4 = 0 ∧
    offsetOf (.j 0x20) = some 32 ∧ seen (fun t => t.pc) (exec (.j 0x20) (bare cfg 0x100 [] [])) = some 0x124 := by decide
theorem test_witness_parkingLoop : (at' cfg 0x18 0x0BFFFFFC [] []).pc.toNat % 4 = 0 ∧ cfg.targetBaseOffset = 4 ∧ cfg.branchDelaySlots = 0 ∧
    (at' cfg 0x18 0x0BFFFFFC [] []).ifetch? 0x18 = some 0x0BFFFFFC := by decide

/-! Assembly -/

theorem test_witness_literals : [-32769, -32768, 32767, 32768].map (fun n => (signed16? n).isSome) = [false, true, true, false] ∧
    [-1, 0, 65535, 65536].map (fun n => (unsigned16? n).isSome) = [false, true, true, false] ∧
    [-33554433, -33554432, 33554431, 33554432].map (fun n => (signed26? n).isSome) = [false, true, true, false] := by decide
theorem test_witness_assembledLines : cfg.targetBaseOffset = 4 ∧ (bare cfg 20 [(2, 1)] []).pc.toNat = 20 ∧
    assembleLine [] 20 "bnez r2, -6" = some (.bnez 2 0xFFE2) ∧ (bare cfg 20 [(2, 1)] []).transfers (.bnez 2 0xFFE2) = true ∧
    seen (fun t => t.pc) (exec (.bnez 2 0xFFE2) (bare cfg 20 [(2, 1)] [])) = some 0xFFFFFFFA := by decide
theorem test_witness_assembledLines_others : assembleLine [("skip", 8)] 0 "jal skip" = some (.jal 4) ∧
    (bare cfg 0 [] []).transfers (.jal 4) = true ∧ assembleLine [] 16 "beqz r12, 2" = some (.beqz 12 0xFFEE) ∧
    (bare cfg 16 [(12, 0)] []).transfers (.beqz 12 0xFFEE) = true ∧ assembleLine [] 0 "j 8" = some (.j 4) := by decide
theorem test_witness_assembledTransfers : cfg.targetBaseOffset = 4 ∧ signed16? (targetOffset 0x10 0x30) = some 0x1C ∧
    signed26? (targetOffset 0x10 0x30) = some 0x1C ∧ (bare cfg 0x10 [] []).pc.toNat = 0x10 ∧
    (bare cfg 0x10 [(3, 0)] []).reg 3 = 0 ∧ (bare cfg 0x10 [(3, 1)] []).reg 3 ≠ 0 ∧
    seen (fun t => t.pc) (exec (.beqz 3 0x1C) (bare cfg 0x10 [(3, 0)] [])) = some 0x30 ∧
    seen (fun t => t.pc) (exec (.bnez 3 0x1C) (bare cfg 0x10 [(3, 1)] [])) = some 0x30 ∧
    seen (fun t => t.pc) (exec (.j 0x1C) (bare cfg 0x10 [] [])) = some 0x30 ∧
    seen (fun t => t.pc) (exec (.jal 0x1C) (bare cfg 0x10 [] [])) = some 0x30 := by decide

end Sys2Proof.Tests
end

section
/-! What no run changes: the program and the parameters (20_memory.md section 8; 00_scope.md R14). -/

namespace Sys2Proof.Machine

/-- The induction over the steps of a run, on any machine of the host's interface. -/
theorem run_keeps_of_step_keeps {M : Host.Core} {P : M.State → Prop}
    (hstep : ∀ s t, P s → M.step s = .next t → P t) (n : Nat) (s t : M.State) (hs : P s) (hrun : M.run n s = .next t) :
    P t := by
  induction n generalizing s with
  | zero => cases hrun; exact hs
  | succ n ih =>
    obtain ⟨u, hu, hrest⟩ := run_succ_next hrun
    exact ih u (hstep s u hs hu) hrest

/-- Only `exec` and `settle` stand between a fetch and the next state, and neither writes the program or the parameters. -/
theorem step_imem_cfg {s t : State} (h : step s = .next t) : t.imem = s.imem ∧ t.cfg = s.cfg := by
  obtain ⟨-, rfl⟩ | ⟨i, u, -, hexec, rfl⟩ := step_next h
  · exact ⟨rfl, rfl⟩
  · obtain ⟨himem, hcfg, -⟩ := exec_sameLaunch hexec
    exact ⟨(s.settle_imem i u).trans himem, (s.settle_cfg i u).trans hcfg⟩

/-- Settles O49: having the first state's program and parameters is kept by every step, so by every run. -/
theorem programIsAConstantOfTheRun : Obligations.ProgramIsAConstantOfTheRun := by
  intro n s t hrun
  refine run_keeps_of_step_keeps (M := core) (P := fun u : State => u.imem = s.imem ∧ u.cfg = s.cfg) ?_ n s t ⟨rfl, rfl⟩ hrun
  rintro u v ⟨himem, hcfg⟩ huv
  obtain ⟨himem', hcfg'⟩ := step_imem_cfg huv
  exact ⟨himem'.trans himem, hcfg'.trans hcfg⟩

end Sys2Proof.Machine
end

section
/-! The fetch at a misaligned pc (10_state.md R26): refused at the fetch, after the transfer that led there has completed. -/

namespace Sys2Proof.Machine

/-- R26 stands first in the order of the checks: `HALT_PC` and the instruction memory are not looked at. -/
theorem State.fetchNext_misaligned {s : State} (h : s.pc.toNat % 4 ≠ 0) : s.fetchNext = .refuse (.misalignedFetch s.pc) :=
  if_pos h

theorem step_of_fetchNext_refuse {s : State} {q : Refusal} (h : s.fetchNext = .refuse q) : step s = .refused q := by
  rw [step, h]

theorem step_misaligned {s : State} (h : s.pc.toNat % 4 ≠ 0) : step s = .refused (.misalignedFetch s.pc) :=
  step_of_fetchNext_refuse (State.fetchNext_misaligned h)

/-- Of the ways an instruction can end, only an access to data memory can be refused, and no branch or jump makes one. -/
theorem exec_completes_of_offsetOf {i : Instr} (h : (offsetOf i).isSome = true) (s : State) : ∃ t, exec i s = .next t := by
  rcases exec_cases i s with ⟨rd, v, -, -, e⟩ | e | ⟨off, -, e⟩ | ⟨off, -, e⟩ | ⟨rd, rs1, imm, rfl, -⟩ | ⟨rs1, rs2, imm, rfl, -⟩
  · exact ⟨_, e⟩
  · exact ⟨_, e⟩
  · exact ⟨_, e⟩
  · exact ⟨_, e⟩
  · cases h
  · cases h

/-- Settles O37: the fetch tests the alignment before anything else, and a transfer computes its target without a check. -/
theorem misalignedFetchIsRefusedAtTheFetch : Obligations.MisalignedFetchIsRefusedAtTheFetch :=
  ⟨fun _ h => step_misaligned h, fun _ s h => exec_completes_of_offsetOf h s, fun _ _ _ _ h => step_misaligned h⟩

end Sys2Proof.Machine
end

section
/-! Register 0 under both values of `R0_HARDWIRED` (10_state.md R22). -/

namespace Sys2Proof.Machine

theorem State.reg_zero_of_hardwired {s : State} (h : s.cfg.r0Hardwired = true) : s.reg 0 = 0 :=
  if_pos (s.readsZero_iff 0 |>.mpr ⟨rfl, h⟩)

theorem State.setReg_zero_of_hardwired {s : State} (h : s.cfg.r0Hardwired = true) (v : Word) : s.setReg 0 v = s :=
  if_pos (s.readsZero_iff 0 |>.mpr ⟨rfl, h⟩)

theorem State.setReg_zero_reg_of_ordinary {s : State} (h : s.cfg.r0Hardwired = false) (v : Word) : (s.setReg 0 v).reg 0 = v := by
  simp [State.setReg_reg_same, h]

theorem State.advance_eq (s : State) : s.advance = { s with pc := nextWord s } := by
  rw [State.advance, nextWord_eq]

theorem State.setReg_zero_advance_of_hardwired {s : State} (h : s.cfg.r0Hardwired = true) (v : Word) :
    (s.setReg 0 v).advance = { s with pc := nextWord s } := by
  rw [State.setReg_zero_of_hardwired h, State.advance_eq]

/-- The only transfer that names a destination is `jal`, and its link register is 31 (10_state.md R24). -/
theorem destReg_ne_zero_of_offsetOf {i : Instr} {o : Int} (h : offsetOf i = some o) : destReg i ≠ some 0 := by
  intro hd
  cases i
  case beqz | bnez | j => cases hd
  case jal =>
    have h31 : (31 : Reg) = 0 := Option.some.inj hd
    exact absurd h31 (by decide)
  all_goals cases h

/-- The ending of an instruction whose destination is a hardwired register 0 is that of `nop`. -/
theorem exec_destReg_zero_of_hardwired {i : Instr} {s t : State} (h0 : s.cfg.r0Hardwired = true) (hd : destReg i = some 0)
    (h : exec i s = .next t) : t = { s with pc := nextWord s } := by
  rcases exec_cases i s with
    ⟨rd, v, hrd, -, e⟩ | e | ⟨off, ⟨o, ho, -⟩, -⟩ | ⟨off, rfl, -⟩ | ⟨rd, rs1, imm, rfl, e⟩ | ⟨rs1, rs2, imm, rfl, -⟩
  · obtain rfl : rd = 0 := Option.some.inj (hrd.symm.trans hd)
    cases e.symm.trans h
    exact State.setReg_zero_advance_of_hardwired h0 v
  · cases e.symm.trans h
    exact s.advance_eq
  · exact absurd hd (destReg_ne_zero_of_offsetOf ho)
  · exact absurd hd (destReg_ne_zero_of_offsetOf rfl)
  · obtain rfl : rd = 0 := Option.some.inj hd
    obtain ⟨a, -, rfl⟩ := execLw_next (e.symm.trans h)
    exact State.setReg_zero_advance_of_hardwired h0 _
  · cases hd

/-- A load is refused by the checks of its address alone: its destination plays no part. -/
theorem execLw_refused_iff {rd rs1 : Reg} {imm : BitVec 16} {s : State} {q : Refusal} :
    execLw rd rs1 imm s = .refused q ↔ s.dataCell (s.effectiveAddress rs1 imm) = .error q := by
  unfold execLw
  cases s.dataCell (s.effectiveAddress rs1 imm) with
  | error r => simp
  | ok a => simp [writeBack]

/-- Settles O50: the clauses are the reads and writes of register 0, what an instruction with that destination ends in, and what
refuses a load. -/
theorem registerZeroIsHardwired : Obligations.RegisterZeroIsHardwired :=
  ⟨fun _ h => ⟨State.reg_zero_of_hardwired h, State.setReg_zero_of_hardwired h⟩,
    fun _ v h => State.setReg_zero_reg_of_ordinary h v,
    fun _ _ _ h0 hd h => exec_destReg_zero_of_hardwired h0 hd h,
    fun _ _ _ _ _ => execLw_refused_iff.trans execLw_refused_iff.symm⟩

end Sys2Proof.Machine
end

section
/-! Which words decode, and what the step makes of those that do not (30_encoding.md R70 to R73, R80). -/

namespace Sys2Proof.Machine

variable {cfg : Config} {iw : Word} {i : Instr}

/-- A word that decodes has a row of one of the two maps, or the code of `sra` or `srai` where these are admitted. -/
theorem decode_ok_cases (h : decode cfg iw = .ok i) :
    (opcodeField iw = 0 ∧
      ((∃ row ∈ funcMap, funcMatches cfg row.1 (funcField iw) = true ∧ i = row.2 iw) ∨
        (cfg.admitSra = true ∧ funcMatches cfg cfg.sraFunc (funcField iw) = true ∧ i = readR .sra iw))) ∨
    (opcodeField iw ≠ 0 ∧
      ((∃ row ∈ opcodeMap, row.1 = opcodeField iw ∧ i = row.2 iw) ∨
        (cfg.admitSra = true ∧ cfg.sraiOpcode = opcodeField iw ∧ i = readI .srai iw))) := by
  unfold decode at h
  split at h
  · rename_i h0
    refine .inl ⟨h0, ?_⟩
    unfold decodeFunc at h
    split at h
    · rename_i row hrow
      exact .inl ⟨row, List.mem_of_find?_eq_some hrow, by simpa using List.find?_some hrow, (Except.ok.inj h).symm⟩
    · split at h
      · rename_i hsra
        obtain ⟨hadmit, hcode⟩ := Bool.and_eq_true_iff.mp hsra
        exact .inr ⟨hadmit, hcode, (Except.ok.inj h).symm⟩
      · cases h
  · rename_i h0
    refine .inr ⟨h0, ?_⟩
    unfold decodeOpcode at h
    split at h
    · rename_i row hrow
      exact .inl ⟨row, List.mem_of_find?_eq_some hrow, by simpa using List.find?_some hrow, (Except.ok.inj h).symm⟩
    · split at h
      · rename_i hsrai
        obtain ⟨hadmit, hcode⟩ := Bool.and_eq_true_iff.mp hsrai
        exact .inr ⟨hadmit, beq_iff_eq.mp hcode, (Except.ok.inj h).symm⟩
      · cases h

theorem exists_decode_of_funcRow (h0 : opcodeField iw = 0) (h : ∃ row ∈ funcMap, funcMatches cfg row.1 (funcField iw) = true) :
    ∃ i, decode cfg iw = .ok i := by
  obtain ⟨row, hrow⟩ := Option.isSome_iff_exists.mp (List.find?_isSome.mpr h)
  exact ⟨_, decode_of_func h0 hrow⟩

theorem exists_decode_of_opcodeRow (h0 : opcodeField iw ≠ 0) (h : ∃ row ∈ opcodeMap, (row.1 == opcodeField iw) = true) :
    ∃ i, decode cfg iw = .ok i := by
  obtain ⟨row, hrow⟩ := Option.isSome_iff_exists.mp (List.find?_isSome.mpr h)
  exact ⟨_, decode_of_opcode h0 hrow⟩

/-- A word with the code of `sra` decodes: to `sra`, or to the row the source gives for that code (log 11). -/
theorem exists_decode_of_sraFunc (h0 : opcodeField iw = 0) (ha : cfg.admitSra = true)
    (hm : funcMatches cfg cfg.sraFunc (funcField iw) = true) : ∃ i, decode cfg iw = .ok i := by
  by_cases h : ∃ row ∈ funcMap, funcMatches cfg row.1 (funcField iw) = true
  · exact exists_decode_of_funcRow h0 h
  · have hnone : funcMap.find? (fun row => funcMatches cfg row.1 (funcField iw)) = none :=
      List.find?_eq_none.mpr fun row hrow hmatch => h ⟨row, hrow, hmatch⟩
    exact ⟨readR .sra iw, by rw [decode, if_pos h0, decodeFunc, hnone]; simp [ha, hm]⟩

/-- A word with the code of `srai` decodes: to `srai`, or to the row the source gives for that code (log 11). -/
theorem exists_decode_of_sraiOpcode (h0 : opcodeField iw ≠ 0) (ha : cfg.admitSra = true)
    (hm : cfg.sraiOpcode = opcodeField iw) : ∃ i, decode cfg iw = .ok i := by
  by_cases h : ∃ row ∈ opcodeMap, (row.1 == opcodeField iw) = true
  · exact exists_decode_of_opcodeRow h0 h
  · have hnone : opcodeMap.find? (fun row => row.1 == opcodeField iw) = none :=
      List.find?_eq_none.mpr fun row hrow hmatch => h ⟨row, hrow, hmatch⟩
    exact ⟨readI .srai iw, by rw [decode, if_neg h0, decodeOpcode, hnone]; simp [ha, hm]⟩

/-- With OPCODE 0 the whole FUNC decides (30_encoding.md R72). -/
theorem exists_decode_iff_func (hk : cfg.funcMatchBits = 11) (h0 : opcodeField iw = 0) :
    (∃ i, decode cfg iw = .ok i) ↔
      funcField iw ∈ funcMap.map Prod.fst ∨ (cfg.admitSra = true ∧ funcField iw = cfg.sraFunc) := by
  have hmatch : ∀ code, funcMatches cfg code (funcField iw) = true ↔ code = funcField iw := fun code => by
    rw [funcMatches_eleven hk, beq_iff_eq]
  constructor
  · rintro ⟨i, hi⟩
    obtain ⟨-, ⟨row, hrow, hcode, -⟩ | ⟨ha, hcode, -⟩⟩ | ⟨hne, -⟩ := decode_ok_cases hi
    · exact .inl (List.mem_map.mpr ⟨row, hrow, (hmatch _).mp hcode⟩)
    · exact .inr ⟨ha, ((hmatch _).mp hcode).symm⟩
    · exact absurd h0 hne
  · rintro (hmem | ⟨ha, hcode⟩)
    · obtain ⟨row, hrow, hcode⟩ := List.mem_map.mp hmem
      exact exists_decode_of_funcRow h0 ⟨row, hrow, (hmatch _).mpr hcode⟩
    · exact exists_decode_of_sraFunc h0 ha ((hmatch _).mpr hcode.symm)

/-- With any other OPCODE the OPCODE decides (30_encoding.md R71). -/
theorem exists_decode_iff_opcode (h0 : opcodeField iw ≠ 0) :
    (∃ i, decode cfg iw = .ok i) ↔
      opcodeField iw ∈ opcodeMap.map Prod.fst ∨ (cfg.admitSra = true ∧ opcodeField iw = cfg.sraiOpcode) := by
  constructor
  · rintro ⟨i, hi⟩
    obtain ⟨h0', -⟩ | ⟨-, ⟨row, hrow, hcode, -⟩ | ⟨ha, hcode, -⟩⟩ := decode_ok_cases hi
    · exact absurd h0' h0
    · exact .inl (List.mem_map.mpr ⟨row, hrow, hcode⟩)
    · exact .inr ⟨ha, hcode.symm⟩
  · rintro (hmem | ⟨ha, hcode⟩)
    · obtain ⟨row, hrow, hcode⟩ := List.mem_map.mp hmem
      exact exists_decode_of_opcodeRow h0 ⟨row, hrow, beq_iff_eq.mpr hcode⟩
    · exact exists_decode_of_sraiOpcode h0 ha hcode.symm

theorem State.fetchNext_undefinedEncoding {s : State} (ha : s.pc.toNat % 4 = 0) (hh : s.cfg.haltPc ≠ some s.pc)
    (hf : s.ifetch? s.pc.toNat = some iw) (hd : ¬ ∃ i, decode s.cfg iw = .ok i) :
    s.fetchNext = .refuse (.undefinedEncoding s.pc iw) := by
  cases hdec : decode s.cfg iw with
  | ok i => exact absurd ⟨i, hdec⟩ hd
  | error r => simp [State.fetchNext, ha, hh, hf, hdec]

/-- Settles O4: the lists of the statement are the codes of the two maps. -/
theorem undefinedEncodingsAreRefused : Obligations.UndefinedEncodingsAreRefused := by
  intro s iw _ hk
  refine ⟨?_, fun ha hh hf hd => step_of_fetchNext_refuse (State.fetchNext_undefinedEncoding ha hh hf hd)⟩
  split
  · rename_i h0
    exact exists_decode_iff_func hk h0
  · rename_i h0
    exact exists_decode_iff_opcode h0

end Sys2Proof.Machine
end

section
/-! The bits of a word its instruction uses (30_encoding.md R74): the canonical word has them and zeros elsewhere. -/

namespace Sys2Proof.Machine

variable {cfg : Config} {iw iw' : Word} {i : Instr}

/-- The bits of the word that the instruction uses: a branch leaves bits 20:16 unused, `nop` all but the OPCODE. -/
def usedBits : Instr → Word
  | .beqz _ _ | .bnez _ _ => 0xFFE0FFFF
  | .nop => 0xFC000000
  | _ => BitVec.allOnes 32

/-! ### A word read by its row and encoded again -/

theorem encodeI_of_opcode {op : BitVec 6} (h : op = opcodeField iw) :
    encodeI op (rs1Field iw) (rs2Field iw) (imm16Field iw) = iw &&& BitVec.allOnes 32 := by
  rw [h, encodeI_fields, BitVec.and_allOnes]

theorem encodeBranch_of_opcode {op : BitVec 6} (h : op = opcodeField iw) :
    encodeI op (rs1Field iw) 0 (imm16Field iw) = iw &&& 0xFFE0FFFF := by
  rw [h, encodeI_clearRs2]

theorem encodeJ_of_opcode {op : BitVec 6} (h : op = opcodeField iw) :
    encodeJ op (imm26Field iw) = iw &&& BitVec.allOnes 32 := by
  rw [h, encodeJ_fields, BitVec.and_allOnes]

theorem encodeNop_of_opcode {op : BitVec 6} (h : op = opcodeField iw) : encodeJ op 0 = iw &&& 0xFC000000 := by
  rw [h, encodeJ_clearOff]

theorem encodeR_of_func {func : BitVec 11} (h0 : opcodeField iw = 0) (h : func = funcField iw) :
    encodeR func (rs1Field iw) (rs2Field iw) (rs3Field iw) = iw &&& BitVec.allOnes 32 := by
  rw [h, encodeR_fields iw h0, BitVec.and_allOnes]

/-- The rows of the OPCODE map in its order: two J-type, two branches, six I-type, `nop`, six I-type. -/
theorem encode_opcodeRow (cfg : Config) (iw : Word) :
    ∀ row ∈ opcodeMap, row.1 = opcodeField iw → encode cfg (row.2 iw) = iw &&& usedBits (row.2 iw) := by
  simp only [opcodeMap, List.forall_mem_cons]
  exact ⟨encodeJ_of_opcode, encodeJ_of_opcode, encodeBranch_of_opcode, encodeBranch_of_opcode,
    encodeI_of_opcode, encodeI_of_opcode, encodeI_of_opcode, encodeI_of_opcode, encodeI_of_opcode, encodeI_of_opcode,
    encodeNop_of_opcode,
    encodeI_of_opcode, encodeI_of_opcode, encodeI_of_opcode, encodeI_of_opcode, encodeI_of_opcode, encodeI_of_opcode, List.forall_mem_nil _⟩

/-- Every row of the FUNC map is R-type and uses the whole word. -/
theorem encode_funcRow (cfg : Config) (iw : Word) (h0 : opcodeField iw = 0) :
    ∀ row ∈ funcMap, row.1 = funcField iw → encode cfg (row.2 iw) = iw &&& usedBits (row.2 iw) := by
  have hr := fun func => encodeR_of_func (iw := iw) (func := func) h0
  simp only [funcMap, List.forall_mem_cons]
  exact ⟨hr _, hr _, hr _, hr _, hr _, hr _, hr _, hr _, hr _, hr _, List.forall_mem_nil _⟩

/-- With all 11 FUNC bits compared, decoding and then encoding keeps the bits used and clears the others. -/
theorem encode_of_decode (hk : cfg.funcMatchBits = 11) (h : decode cfg iw = .ok i) : encode cfg i = iw &&& usedBits i := by
  obtain ⟨h0, ⟨row, hrow, hcode, rfl⟩ | ⟨-, hcode, rfl⟩⟩ | ⟨-, ⟨row, hrow, hcode, rfl⟩ | ⟨-, hcode, rfl⟩⟩ := decode_ok_cases h
  · rw [funcMatches_eleven hk, beq_iff_eq] at hcode
    exact encode_funcRow cfg iw h0 row hrow hcode
  · rw [funcMatches_eleven hk, beq_iff_eq] at hcode
    exact encodeR_of_func h0 hcode
  · exact encode_opcodeRow cfg iw row hrow hcode
  · exact encodeI_of_opcode hcode

/-! ### Which words have unused bits -/

/-- Every instruction uses its OPCODE. -/
theorem opcodeField_and_usedBits (iw : Word) (i : Instr) : opcodeField (iw &&& usedBits i) = opcodeField iw := by
  have hbranch : opcodeField (iw &&& 0xFFE0FFFF) = opcodeField iw := by
    rw [← encodeI_clearRs2, opcodeField_encodeI]
  have hnop : opcodeField (iw &&& 0xFC000000) = opcodeField iw := by
    rw [← encodeJ_clearOff, opcodeField_encodeJ]
  have hall : opcodeField (iw &&& BitVec.allOnes 32) = opcodeField iw := by
    rw [BitVec.and_allOnes]
  cases i
  case beqz | bnez => exact hbranch
  case nop => exact hnop
  all_goals exact hall

theorem opcodeField_encode_of_decode (hk : cfg.funcMatchBits = 11) (h : decode cfg iw = .ok i) :
    opcodeField (encode cfg i) = opcodeField iw := by
  rw [encode_of_decode hk h, opcodeField_and_usedBits]

/-- Only branches and `nop` leave bits unused, and the OPCODE of the canonical word tells them. -/
theorem usedBits_eq_allOnes (h : opcodeField (encode cfg i) ∉ [opBeqz, opBnez, opNop]) : usedBits i = BitVec.allOnes 32 := by
  cases i
  case beqz | bnez => simp [encode] at h
  case nop => simp [encode] at h
  all_goals rfl

/-- An R-type instruction or a jump uses every bit of its word. -/
theorem usedBits_of_decode_jump_or_register (hk : cfg.funcMatchBits = 11) (h : decode cfg iw = .ok i)
    (hop : opcodeField iw = 0 ∨ opcodeField iw = opJ ∨ opcodeField iw = opJal) : usedBits i = BitVec.allOnes 32 := by
  rw [← opcodeField_encode_of_decode hk h] at hop
  refine usedBits_eq_allOnes (cfg := cfg) ?_
  obtain h | h | h := hop <;> (rw [h]; decide)

theorem decode_injective_of_jump_or_register (hk : cfg.funcMatchBits = 11)
    (hop : opcodeField iw = 0 ∨ opcodeField iw = opJ ∨ opcodeField iw = opJal)
    (h : decode cfg iw = .ok i) (h' : decode cfg iw' = .ok i) : iw = iw' := by
  have hused := usedBits_of_decode_jump_or_register hk h hop
  calc iw = iw &&& usedBits i := by rw [hused, BitVec.and_allOnes]
    _ = encode cfg i := (encode_of_decode hk h).symm
    _ = iw' &&& usedBits i := encode_of_decode hk h'
    _ = iw' := by rw [hused, BitVec.and_allOnes]

/-! ### Words that differ in unused bits alone -/

/-- Words that agree outside bits 20:16 have the same branch fields. -/
theorem branchFields_eq (h : iw &&& 0xFFE0FFFF = iw' &&& 0xFFE0FFFF) :
    opcodeField iw = opcodeField iw' ∧ rs1Field iw = rs1Field iw' ∧ imm16Field iw = imm16Field iw' := by
  rw [← encodeI_clearRs2, ← encodeI_clearRs2] at h
  exact ⟨by simpa using congrArg opcodeField h, by simpa using congrArg rs1Field h, by simpa using congrArg imm16Field h⟩

theorem opcodeField_eq_of_and (h : iw &&& 0xFC000000 = iw' &&& 0xFC000000) : opcodeField iw = opcodeField iw' := by
  rw [← encodeJ_clearOff, ← encodeJ_clearOff] at h
  simpa using congrArg opcodeField h

theorem decode_eq_of_branch {op : BitVec 6} {mk : Reg → BitVec 16 → Instr} (hw : BranchWordsDecode op mk)
    (hop : opcodeField iw = op) (h : iw &&& 0xFFE0FFFF = iw' &&& 0xFFE0FFFF) : decode cfg iw = decode cfg iw' := by
  obtain ⟨hop', hrs1, himm⟩ := branchFields_eq h
  calc decode cfg iw = .ok (mk (rs1Field iw) (imm16Field iw)) := hw cfg iw hop
    _ = .ok (mk (rs1Field iw') (imm16Field iw')) := by rw [hrs1, himm]
    _ = decode cfg iw' := (hw cfg iw' (hop'.symm.trans hop)).symm

theorem decode_nop_of_opcode (hop : opcodeField iw = opNop) : decode cfg iw = .ok .nop :=
  decode_of_opcode (row := (opNop, fun _ => .nop)) (by rw [hop]; decide) (by rw [hop]; rfl)

/-- A register field that reads as register 0 holds zeros. -/
theorem rs2Bits_encodeI_zero (op : BitVec 6) (rs1 : Reg) (imm : BitVec 16) :
    (encodeI op rs1 0 imm).extractLsb' 16 5 = 0 :=
  BitVec.eq_of_toFin_eq (rs2Field_encodeI op rs1 0 imm)

/-- Settles O5: the fields of a branch or `nop` leave bits out, and those of a jump or an R-type word make up the word. -/
theorem unusedBitsAreIgnored : Obligations.UnusedBitsAreIgnored := by
  refine ⟨?branches, ?nops, fun _ _ _ => ⟨rs2Bits_encodeI_zero .., rs2Bits_encodeI_zero ..⟩, fun _ => rfl,
    fun _ _ _ _ _ hk hop h h' => decode_injective_of_jump_or_register hk hop h h'⟩
  case branches =>
    rintro cfg iw iw' (hop | hop) h
    · exact decode_eq_of_branch (branchWordsDecode_of_row (mk := .beqz) (by decide) rfl) hop h
    · exact decode_eq_of_branch (branchWordsDecode_of_row (mk := .bnez) (by decide) rfl) hop h
  case nops =>
    intro cfg iw iw' hop h
    have hnop : decode cfg iw = .ok .nop := decode_nop_of_opcode hop
    have hnop' : decode cfg iw' = .ok .nop := decode_nop_of_opcode ((opcodeField_eq_of_and h).symm.trans hop)
    exact ⟨hnop.trans hnop'.symm, hnop⟩

end Sys2Proof.Machine
end

section
/-! The literals of the assembler (30_encoding.md R87): which are rejected, and what the field made from one reads as. -/

namespace Sys2Proof

theorem ite_between_eq_none_iff {α : Type} {lo hi n : Int} {v : α} :
    (if lo ≤ n ∧ n ≤ hi then some v else none) = none ↔ n < lo ∨ hi < n := by
  split
  · simp; omega
  · simp; omega

theorem signed16?_eq_none_iff (n : Int) : signed16? n = none ↔ n < -32768 ∨ 32767 < n := ite_between_eq_none_iff

theorem unsigned16?_eq_none_iff (n : Int) : unsigned16? n = none ↔ n < 0 ∨ 65535 < n := ite_between_eq_none_iff

theorem signed26?_eq_none_iff (n : Int) : signed26? n = none ↔ n < -33554432 ∨ 33554431 < n := ite_between_eq_none_iff

theorem toInt_of_signed16? {n : Int} {v : BitVec 16} (h : signed16? n = some v) : v.toInt = n := by
  obtain ⟨⟨hlo, hhi⟩, hv⟩ := Option.ite_none_right_eq_some.mp h
  cases hv
  exact BitVec.toInt_ofInt_eq_self (by decide) hlo (Int.lt_add_one_iff.mpr hhi)

theorem toNat_of_unsigned16? {n : Int} {v : BitVec 16} (h : unsigned16? n = some v) : (v.toNat : Int) = n := by
  obtain ⟨⟨hlo, hhi⟩, hv⟩ := Option.ite_none_right_eq_some.mp h
  cases hv
  rw [BitVec.toNat_ofInt]
  omega

theorem toInt_of_signed26? {n : Int} {v : BitVec 26} (h : signed26? n = some v) : v.toInt = n := by
  obtain ⟨⟨hlo, hhi⟩, hv⟩ := Option.ite_none_right_eq_some.mp h
  cases hv
  exact BitVec.toInt_ofInt_eq_self (by decide) hlo (Int.lt_add_one_iff.mpr hhi)

/-- Settles O58: each literal function is a test of its range, and a number in the range of a field is kept by its bits. -/
theorem literalsOutOfRangeAreRejected : Obligations.LiteralsOutOfRangeAreRejected :=
  ⟨fun n => ⟨signed16?_eq_none_iff n, fun _ => toInt_of_signed16?⟩,
    fun n => ⟨unsigned16?_eq_none_iff n, fun _ => toNat_of_unsigned16?⟩,
    fun n => ⟨signed26?_eq_none_iff n, fun _ => toInt_of_signed26?⟩⟩

end Sys2Proof
end

section
/-! The results of the ALU instructions in exact arithmetic (40_itype_alu_immediate.md R100 to R112): what the operand forms and
comparisons of the model compute, and what an instruction that ends in `writeBack` does. -/

namespace Sys2Proof.Machine

/-- An instruction that writes back a value does what the spec says of the exact result that value is. -/
theorem exec_writesReg {i : Instr} {rd : Reg} {v w : Word} {s : State} (h : exec i s = writeBack rd v s) (hv : v = w) :
    ∃ t, exec i s = .next t ∧ WritesReg s t rd w := by
  rw [h, ← hv]
  exact writeBack_writesReg rd v s

/-! ### The immediate operand -/

theorem word_add_sext32 (a : Word) (imm : BitVec 16) : a + sext32 imm = BitVec.ofInt 32 (a.toNat + imm.toInt) := by
  rw [sext32_eq, word_add_ofInt]

theorem word_sub_sext32 (a : Word) (imm : BitVec 16) : a - sext32 imm = BitVec.ofInt 32 (a.toNat - imm.toInt) := by
  rw [sext32_eq, word_sub_ofInt]

theorem word_and_zext32 (a : Word) (uimm : BitVec 16) : a &&& zext32 uimm = BitVec.ofNat 32 (a.toNat &&& uimm.toNat) := by
  rw [BitVec.ofNat_and, BitVec.ofNat_toNat, BitVec.ofNat_toNat, BitVec.setWidth_eq, zext32]

theorem word_or_zext32 (a : Word) (uimm : BitVec 16) : a ||| zext32 uimm = BitVec.ofNat 32 (a.toNat ||| uimm.toNat) := by
  rw [BitVec.ofNat_or, BitVec.ofNat_toNat, BitVec.ofNat_toNat, BitVec.setWidth_eq, zext32]

theorem word_xor_zext32 (a : Word) (uimm : BitVec 16) : a ^^^ zext32 uimm = BitVec.ofNat 32 (a.toNat ^^^ uimm.toNat) := by
  rw [BitVec.ofNat_xor, BitVec.ofNat_toNat, BitVec.ofNat_toNat, BitVec.setWidth_eq, zext32]

/-- R112: the count is taken from the unsigned field. -/
theorem State.shiftCount_zext32 (s : State) (uimm : BitVec 16) :
    s.shiftCount (zext32 uimm) = uimm.toNat % 2 ^ s.cfg.shiftAmountBits := by
  rw [State.shiftCount, toNat_zext32]

/-! ### Comparisons -/

theorem truthWord_eq_ite {b : Bool} {p : Prop} [Decidable p] (h : b = true ↔ p) : truthWord b = if p then 1 else 0 :=
  if_congr h rfl rfl

/-- Two words have the same bits exactly when they have the same signed value. -/
theorem truthWord_wordNe (a b : Word) : truthWord (wordNe a b) = if a.toInt ≠ b.toInt then 1 else 0 :=
  truthWord_eq_ite (bne_iff_ne.trans (not_congr BitVec.toInt_inj.symm))

theorem truthWord_signedLe (a b : Word) : truthWord (signedLe a b) = if a.toInt ≤ b.toInt then 1 else 0 :=
  truthWord_eq_ite decide_eq_true_iff

theorem truthWord_signedGe (a b : Word) : truthWord (signedGe a b) = if b.toInt ≤ a.toInt then 1 else 0 :=
  truthWord_eq_ite decide_eq_true_iff

end Sys2Proof.Machine
end

section
/-! The I-type ALU instructions (40_itype_alu_immediate.md): each decodes by its row of the OPCODE map, `srai` by its parameter,
and writes back its exact result. -/

namespace Sys2Proof.Machine

/-- The code of `srai` is free under allowed parameters (30_encoding.md R73), so no row of the OPCODE map takes its words. -/
theorem decode_of_sraiOpcode {cfg : Config} {iw : Word} (hwf : cfg.wf = true) (ha : cfg.admitSra = true)
    (hop : opcodeField iw = cfg.sraiOpcode) : decode cfg iw = .ok (readI .srai iw) := by
  obtain ⟨-, -, -, hfree⟩ := Config.codesDistinct_of_wf hwf
  have h0 : opcodeField iw ≠ 0 := hop ▸ (hfree 0 (by decide)).symm
  have htaken : ∀ row ∈ opcodeMap, row.1 ∈ takenOpcodes := fun row hrow =>
    List.mem_cons_of_mem 0 (List.mem_map_of_mem (f := Prod.fst) hrow)
  have hnone : opcodeMap.find? (fun row => row.1 == opcodeField iw) = none :=
    List.find?_eq_none.mpr fun row hrow hcode => hfree row.1 (htaken row hrow) ((beq_iff_eq.mp hcode).trans hop)
  rw [decode, if_neg h0, decodeOpcode, hnone]
  simp [ha, hop]

/-- Settles O6: adding the sign-extended immediate is adding its signed value. -/
theorem addiAddsSignedImmediate : Obligations.AddiAddsSignedImmediate :=
  ⟨iWordsDecode_of_row (by decide) rfl, fun _ _ _ _ => exec_writesReg rfl (word_add_sext32 _ _)⟩

/-- Settles O7: subtracting the sign-extended immediate is subtracting its signed value. -/
theorem subiSubtractsSignedImmediate : Obligations.SubiSubtractsSignedImmediate :=
  ⟨iWordsDecode_of_row (by decide) rfl, fun _ _ _ _ => exec_writesReg rfl (word_sub_sext32 _ _)⟩

/-- Settles O8: the zero-extended immediate has the bits of its unsigned value. -/
theorem andiIsBitwiseWithZeroExtension : Obligations.AndiIsBitwiseWithZeroExtension :=
  ⟨iWordsDecode_of_row (by decide) rfl, fun _ _ _ _ => exec_writesReg rfl (word_and_zext32 _ _)⟩

/-- Settles O9: as for `andi`. -/
theorem oriIsBitwiseWithZeroExtension : Obligations.OriIsBitwiseWithZeroExtension :=
  ⟨iWordsDecode_of_row (by decide) rfl, fun _ _ _ _ => exec_writesReg rfl (word_or_zext32 _ _)⟩

/-- Settles O10: as for `andi`. -/
theorem xoriIsBitwiseWithZeroExtension : Obligations.XoriIsBitwiseWithZeroExtension :=
  ⟨iWordsDecode_of_row (by decide) rfl, fun _ _ _ _ => exec_writesReg rfl (word_xor_zext32 _ _)⟩

/-- Settles O11: `shl_eq` covers the counts of 32 and more, and the count is that of the unsigned field. -/
theorem slliMultipliesByPowerOfTwo : Obligations.SlliMultipliesByPowerOfTwo := by
  refine ⟨iWordsDecode_of_row (by decide) rfl, fun rd rs1 uimm s => exec_writesReg rfl ?_⟩
  rw [shl_eq, s.shiftCount_zext32]

/-- Settles O12: `shrU_eq` covers the counts of 32 and more, and the count is that of the unsigned field. -/
theorem srliDividesUnsigned : Obligations.SrliDividesUnsigned := by
  refine ⟨iWordsDecode_of_row (by decide) rfl, fun rd rs1 uimm s => exec_writesReg rfl ?_⟩
  rw [shrU_eq, s.shiftCount_zext32]

/-- Settles O13: the parameter's code is taken by no row, and `shrS_eq` covers the counts of 32 and more. -/
theorem sraiDividesSignedRoundingDown : Obligations.SraiDividesSignedRoundingDown := by
  refine ⟨fun _ _ hwf ha hop => decode_of_sraiOpcode hwf ha hop, fun rd rs1 uimm s => exec_writesReg rfl ?_⟩
  rw [shrS_eq, s.shiftCount_zext32]

/-- Settles O14: sign extension keeps the immediate's signed value. -/
theorem sneiComparesWithSignedImmediate : Obligations.SneiComparesWithSignedImmediate := by
  refine ⟨iWordsDecode_of_row (by decide) rfl, fun rd rs1 imm s => exec_writesReg rfl ?_⟩
  rw [truthWord_wordNe, toInt_sext32]

/-- Settles O15: sign extension keeps the immediate's signed value. -/
theorem sleiComparesWithSignedImmediate : Obligations.SleiComparesWithSignedImmediate := by
  refine ⟨iWordsDecode_of_row (by decide) rfl, fun rd rs1 imm s => exec_writesReg rfl ?_⟩
  rw [truthWord_signedLe, toInt_sext32]

/-- Settles O16: sign extension keeps the immediate's signed value. -/
theorem sgeiComparesWithSignedImmediate : Obligations.SgeiComparesWithSignedImmediate := by
  refine ⟨iWordsDecode_of_row (by decide) rfl, fun rd rs1 imm s => exec_writesReg rfl ?_⟩
  rw [truthWord_signedGe, toInt_sext32]

end Sys2Proof.Machine
end

section
/-! Loads and stores by what the checks of the data access answer (41_load_store.md R120, R121; 20_memory.md R44 to R48), under every
addressing and alignment. -/

namespace Sys2Proof.Machine

variable {s : State} {rd rs1 rs2 : Reg} {imm : BitVec 16} {a : Nat} {q : Refusal}

theorem exec_lw_refused (h : s.dataCell (addressOf s rs1 imm) = .error q) : exec (.lw rd rs1 imm) s = .refused q :=
  execLw_refused_iff.mpr (s.effectiveAddress_eq rs1 imm ▸ h)

theorem exec_lw_writesReg (h : s.dataCell (addressOf s rs1 imm) = .ok a) :
    ∃ t, exec (.lw rd rs1 imm) s = .next t ∧ WritesReg s t rd (bytesAt s s.dataOrder a) := by
  have hexec : exec (.lw rd rs1 imm) s = writeBack rd (s.memRead a) s := by
    rw [exec, execLw, s.effectiveAddress_eq, h]
  exact exec_writesReg hexec (s.memRead_eq_bytesAt a)

/-- The end of a store: its four cells and `pc` are all that changes. -/
theorem State.memWrite_advance_storesWord (s : State) (a : Nat) (v : Word) :
    StoresWord s (s.memWrite a v).advance s.dataOrder a v := by
  refine ⟨fun k hk => ?_, fun b hb => ⟨?_, ?_⟩, fun _ => rfl, nextWord_eq s, rfl, rfl, rfl⟩
  · rw [State.advance_dmem, State.memWrite_dmem, Memory.byte?_putWord_at _ _ _ _ _ hk, bytesOfWord_getElem]
  · exact Memory.byte?_putWord_other s.dmem s.dataOrder v hb
  · exact s.dataByte_memWrite_other v hb

theorem exec_sw_refused (h : s.dataCell (addressOf s rs1 imm) = .error q) : exec (.sw rs1 rs2 imm) s = .refused q := by
  rw [exec, execSw, s.effectiveAddress_eq, h]

theorem exec_sw_storesWord (h : s.dataCell (addressOf s rs1 imm) = .ok a) :
    ∃ t, exec (.sw rs1 rs2 imm) s = .next t ∧ StoresWord s t s.dataOrder a (s.reg rs2) := by
  refine ⟨_, ?_, s.memWrite_advance_storesWord a (s.reg rs2)⟩
  rw [exec, execSw, s.effectiveAddress_eq, h]

end Sys2Proof.Machine
end

section
/-! `lw` and `sw` in the default data memory, byte-addressed and refusing misaligned addresses: the checks in the order of
60_exceptions.md R183. -/

namespace Sys2Proof.Machine

variable {s : State} {ea : Word}

theorem State.dataCell_misaligned (hb : s.cfg.dmemAddressing = .byte) (hm : s.cfg.dmemMisaligned = .refuse)
    (ha : ea.toNat % 4 ≠ 0) : s.dataCell ea = .error (.misalignedData ea) := by
  rw [State.dataCell_refuse hb hm, if_pos ha]

theorem State.dataCell_aligned_inside (hb : s.cfg.dmemAddressing = .byte) (hm : s.cfg.dmemMisaligned = .refuse)
    (ha : ea.toNat % 4 = 0) (hr : s.cfg.dmemBase ≤ ea.toNat ∧ ea.toNat + 3 < s.cfg.dmemBase + s.cfg.dmemSize) :
    s.dataCell ea = .ok ea.toNat := by
  rw [State.dataCell_refuse hb hm, if_neg (not_not.mpr ha), if_pos ((s.inDataMemory_iff _).mpr hr)]

theorem State.dataCell_aligned_outside (hb : s.cfg.dmemAddressing = .byte) (hm : s.cfg.dmemMisaligned = .refuse)
    (ha : ea.toNat % 4 = 0) (hr : ¬ (s.cfg.dmemBase ≤ ea.toNat ∧ ea.toNat + 3 < s.cfg.dmemBase + s.cfg.dmemSize)) :
    s.dataCell ea = .error (.dataOutOfRange ea) := by
  rw [State.dataCell_refuse hb hm, if_neg (not_not.mpr ha), if_neg (mt (s.inDataMemory_iff _).mp hr)]

/-- Settles O17: the three answers of the checks are the three branches, and a byte-addressed memory uses `BYTE_ORDER`. -/
theorem lwLoadsTheAlignedWord : Obligations.LwLoadsTheAlignedWord := by
  refine ⟨iWordsDecode_of_row (by decide) rfl, fun rd rs1 imm s hb hm => ?_⟩
  split_ifs with ha hr
  · exact exec_lw_refused (State.dataCell_misaligned hb hm ha)
  · rw [← State.dataOrder_byte hb]
    exact exec_lw_writesReg (State.dataCell_aligned_inside hb hm (not_not.mp ha) hr)
  · exact exec_lw_refused (State.dataCell_aligned_outside hb hm (not_not.mp ha) hr)

/-- A store word names its source in bits 20:16 (30_encoding.md R63). -/
theorem decode_sw_of_opcode {cfg : Config} {iw : Word} (hop : opcodeField iw = opSw) : decode cfg iw = .ok (readStore .sw iw) :=
  decode_of_opcode (row := (opSw, readStore .sw)) (by rw [hop]; decide) (by rw [hop]; rfl)

/-- Settles O19: as for `lw`, with the ending of a store. -/
theorem swStoresTheAlignedWord : Obligations.SwStoresTheAlignedWord := by
  refine ⟨fun _ _ hop => decode_sw_of_opcode hop, fun rs1 rs2 imm s hb hm => ?_⟩
  split_ifs with ha hr
  · exact exec_sw_refused (State.dataCell_misaligned hb hm ha)
  · rw [← State.dataOrder_byte hb]
    exact exec_sw_storesWord (State.dataCell_aligned_inside hb hm (not_not.mp ha) hr)
  · exact exec_sw_refused (State.dataCell_aligned_outside hb hm (not_not.mp ha) hr)

end Sys2Proof.Machine
end

section
/-! The R-type instructions (42_rtype_alu_register.md R130 to R143): each decodes by its row of the FUNC map, `sra` by its parameter,
and writes back its exact result. -/

namespace Sys2Proof.Machine

/-! ### Two register operands in exact arithmetic -/

theorem word_sub_eq (a b : Word) : a - b = BitVec.ofInt 32 (a.toNat - b.toNat) := by
  rw [← word_sub_ofInt, BitVec.ofInt_natCast, BitVec.ofNat_toNat, BitVec.setWidth_eq]

theorem word_and_eq (a b : Word) : a &&& b = BitVec.ofNat 32 (a.toNat &&& b.toNat) := by
  rw [← BitVec.toNat_and, BitVec.ofNat_toNat, BitVec.setWidth_eq]

theorem word_or_eq (a b : Word) : a ||| b = BitVec.ofNat 32 (a.toNat ||| b.toNat) := by
  rw [← BitVec.toNat_or, BitVec.ofNat_toNat, BitVec.setWidth_eq]

theorem word_xor_eq (a b : Word) : a ^^^ b = BitVec.ofNat 32 (a.toNat ^^^ b.toNat) := by
  rw [← BitVec.toNat_xor, BitVec.ofNat_toNat, BitVec.setWidth_eq]

/-- Two words have the same bits exactly when they have the same unsigned value. -/
theorem truthWord_wordNe_toNat (a b : Word) : truthWord (wordNe a b) = if a.toNat ≠ b.toNat then 1 else 0 :=
  truthWord_eq_ite (bne_iff_ne.trans (not_congr BitVec.toNat_inj.symm))

/-! ### The encoding of `sra` -/

/-- The code of `sra` is free under allowed parameters (30_encoding.md R73), so no row of the FUNC map takes its words. -/
theorem decode_of_sraFunc {cfg : Config} {iw : Word} (hwf : cfg.wf = true) (ha : cfg.admitSra = true)
    (h0 : opcodeField iw = 0) (hf : funcField iw = cfg.sraFunc) : decode cfg iw = .ok (readR .sra iw) := by
  obtain ⟨-, -, hfree, -⟩ := Config.codesDistinct_of_wf hwf
  have htaken : ∀ row ∈ funcMap, row.1 ∈ takenFuncs := fun row hrow => List.mem_map_of_mem (f := Prod.fst) hrow
  have hnone : funcMap.find? (fun row => funcMatches cfg row.1 cfg.sraFunc) = none :=
    List.find?_eq_none.mpr fun row hrow => Bool.eq_false_iff.mp (hfree row.1 (htaken row hrow))
  rw [decode, if_pos h0, decodeFunc, hf, hnone]
  simp [ha, funcMatches]

/-! ### The instructions -/

/-- Settles O26: `shl_eq` covers the counts of 32 and more, and the model's count is the one the statement writes out. -/
theorem sllMultipliesByPowerOfTwo : Obligations.SllMultipliesByPowerOfTwo :=
  ⟨rWordsDecode_of_row (by decide) rfl, fun _ _ _ _ => exec_writesReg rfl (shl_eq _ _)⟩

/-- Settles O27: `shrU_eq` covers the counts of 32 and more. -/
theorem srlDividesUnsigned : Obligations.SrlDividesUnsigned :=
  ⟨rWordsDecode_of_row (by decide) rfl, fun _ _ _ _ => exec_writesReg rfl (shrU_eq _ _)⟩

/-- Settles O28: the parameter's code matches no row, and `shrS_eq` covers the counts of 32 and more. -/
theorem sraDividesSignedRoundingDown : Obligations.SraDividesSignedRoundingDown :=
  ⟨fun _ _ hwf ha h0 hf => decode_of_sraFunc hwf ha h0 hf, fun _ _ _ _ => exec_writesReg rfl (shrS_eq _ _)⟩

/-- Settles O21: the sum of two words is the sum of their unsigned values, modulo 2^32 by `BitVec.add_def`. -/
theorem addAddsModuloTwoToThe32 : Obligations.AddAddsModuloTwoToThe32 :=
  ⟨rWordsDecode_of_row (by decide) rfl, fun _ _ _ _ => exec_writesReg rfl (BitVec.add_def _ _)⟩

/-- Settles O22: the difference of two words is that of their unsigned values, taken in the integers. -/
theorem subSubtractsModuloTwoToThe32 : Obligations.SubSubtractsModuloTwoToThe32 :=
  ⟨rWordsDecode_of_row (by decide) rfl, fun _ _ _ _ => exec_writesReg rfl (word_sub_eq _ _)⟩

/-- Settles O23: the bits of a word are those of its unsigned value. -/
theorem andIsBitwise : Obligations.AndIsBitwise :=
  ⟨rWordsDecode_of_row (by decide) rfl, fun _ _ _ _ => exec_writesReg rfl (word_and_eq _ _)⟩

/-- Settles O24: as for `and`. -/
theorem orIsBitwise : Obligations.OrIsBitwise :=
  ⟨rWordsDecode_of_row (by decide) rfl, fun _ _ _ _ => exec_writesReg rfl (word_or_eq _ _)⟩

/-- Settles O25: as for `and`. -/
theorem xorIsBitwise : Obligations.XorIsBitwise :=
  ⟨rWordsDecode_of_row (by decide) rfl, fun _ _ _ _ => exec_writesReg rfl (word_xor_eq _ _)⟩

/-- Settles O29: words that differ in a bit differ in their unsigned value. -/
theorem sneComparesAllBits : Obligations.SneComparesAllBits :=
  ⟨rWordsDecode_of_row (by decide) rfl, fun _ _ _ _ => exec_writesReg rfl (truthWord_wordNe_toNat _ _)⟩

/-- Settles O30: the model compares the signed values themselves. -/
theorem sleComparesSigned : Obligations.SleComparesSigned :=
  ⟨rWordsDecode_of_row (by decide) rfl, fun _ _ _ _ => exec_writesReg rfl (truthWord_signedLe _ _)⟩

/-- Settles O31: as for `sle`, with the comparison turned round. -/
theorem sgeComparesSigned : Obligations.SgeComparesSigned :=
  ⟨rWordsDecode_of_row (by decide) rfl, fun _ _ _ _ => exec_writesReg rfl (truthWord_signedGe _ _)⟩

end Sys2Proof.Machine
end

section
/-! The branches and jumps (43_control_transfer.md R150 to R155): each decodes by its row of the OPCODE map and ends in a transfer
to its target or in an advance to the next word. -/

namespace Sys2Proof.Machine

variable {s : State} {rs1 : Reg}

/-- R155: the target of a transfer, in exact arithmetic, is all that it sets. -/
theorem State.transfer_onlySetsTarget {n : Nat} (s : State) (off : BitVec n) :
    OnlySetsPc s (s.transfer (sext32 off)) (targetOf s off.toInt) :=
  s.target_eq off ▸ s.transfer_onlySetsPc (sext32 off)

/-! ### The two ways out of a branch -/

/-- A branch tests all 32 bits of its register. -/
theorem State.reg_toNat_eq_zero_iff : (s.reg rs1).toNat = 0 ↔ s.reg rs1 = 0 := BitVec.toNat_inj (y := 0)

theorem exec_beqz_of_zero (h : s.reg rs1 = 0) (off : BitVec 16) : exec (.beqz rs1 off) s = .next (s.transfer (sext32 off)) :=
  congrArg _ (if_pos h)

theorem exec_beqz_of_nonzero (h : s.reg rs1 ≠ 0) (off : BitVec 16) : exec (.beqz rs1 off) s = .next s.advance :=
  congrArg _ (if_neg h)

theorem exec_bnez_of_zero (h : s.reg rs1 = 0) (off : BitVec 16) : exec (.bnez rs1 off) s = .next s.advance :=
  congrArg _ (if_neg (not_not.mpr h))

theorem exec_bnez_of_nonzero (h : s.reg rs1 ≠ 0) (off : BitVec 16) : exec (.bnez rs1 off) s = .next (s.transfer (sext32 off)) :=
  congrArg _ (if_pos h)

/-- Settles O32: the register is 0 or not, and each way out sets only `pc`. -/
theorem beqzBranchesOnZero : Obligations.BeqzBranchesOnZero := by
  refine ⟨branchWordsDecode_of_row (by decide) rfl, fun rs1 off s => ?_⟩
  split_ifs with h
  · exact ⟨_, exec_beqz_of_zero (State.reg_toNat_eq_zero_iff.mp h) off, s.transfer_onlySetsTarget off⟩
  · exact ⟨_, exec_beqz_of_nonzero (mt State.reg_toNat_eq_zero_iff.mpr h) off, s.advance_onlySetsPc⟩

/-- Settles O33: as for `beqz`, with the two ways out exchanged. -/
theorem bnezBranchesOnNonzero : Obligations.BnezBranchesOnNonzero := by
  refine ⟨branchWordsDecode_of_row (by decide) rfl, fun rs1 off s => ?_⟩
  split_ifs with h
  · exact ⟨_, exec_bnez_of_zero (State.reg_toNat_eq_zero_iff.mp h) off, s.advance_onlySetsPc⟩
  · exact ⟨_, exec_bnez_of_nonzero (mt State.reg_toNat_eq_zero_iff.mpr h) off, s.transfer_onlySetsTarget off⟩

/-! ### The jumps -/

/-- Settles O34: `j` is the transfer alone. -/
theorem jJumpsRelative : Obligations.JJumpsRelative :=
  ⟨jWordsDecode_of_row (by decide) rfl, fun off s => ⟨_, rfl, s.transfer_onlySetsTarget off⟩⟩

theorem State.setReg_regsWith (s : State) (rd : Reg) (v : Word) : RegsWith s (s.setReg rd v) rd v :=
  ⟨s.setReg_reg_same rd v, fun r h => s.setReg_reg_other rd r v h⟩

/-- Settles O35: writing the link register leaves `pc` as it is, so the target is computed from the address of the `jal` (R155). -/
theorem jalLinksAndJumps : Obligations.JalLinksAndJumps := by
  refine ⟨jWordsDecode_of_row (by decide) rfl, fun off s => ⟨_, rfl, ?regs, ?target, ?data, ?launch⟩⟩
  case regs =>
    rw [← BitVec.add_def]
    exact s.setReg_regsWith 31 (s.pc + s.cfg.linkOffset)
  case target => simp [s.target_eq off]
  case data => exact ⟨by simp, by simp⟩
  case launch => exact exec_sameLaunch (i := .jal off) rfl

end Sys2Proof.Machine
end

section
/-! The `nop` (44_nop.md R170): its words are those whose OPCODE is that of `nop`, and it ends in an advance to the next word. -/

namespace Sys2Proof.Machine

variable {iw : Word}

/-- The OPCODE is the six high bits of the word, bits 31:26. -/
theorem opcodeField_toNat (iw : Word) : (opcodeField iw).toNat = iw.toNat / 2 ^ 26 := by
  rw [opcodeField, BitVec.extractLsb'_toNat, Nat.shiftRight_eq_div_pow]
  exact Nat.mod_eq_of_lt (by have := iw.isLt; omega)

/-- R170: with bits 25:0 free, the words with the OPCODE of `nop` are a range. -/
theorem opcodeField_eq_opNop_iff : opcodeField iw = opNop ↔ 0x54000000 ≤ iw.toNat ∧ iw.toNat ≤ 0x57FFFFFF := by
  have hop : opNop.toNat = 0x15 := rfl
  rw [← BitVec.toNat_inj, opcodeField_toNat, hop]
  omega

/-- Settles O36: a word of the range has the OPCODE of `nop`, and its execution is the advance alone. -/
theorem nopOnlyAdvances : Obligations.NopOnlyAdvances :=
  ⟨fun _ _ hlo hhi => decode_nop_of_opcode (opcodeField_eq_opNop_iff.mpr ⟨hlo, hhi⟩), fun _ => rfl,
    fun s => ⟨s.advance, rfl, s.advance_onlySetsPc⟩⟩

end Sys2Proof.Machine
end

section
/-! What refuses a step (60_exceptions.md R181): the fetch, or the checks of the data access a fetched `lw` or `sw` makes. -/

namespace Sys2Proof.Machine

variable {s : State} {q : Refusal} {ea : Word}

theorem onNext_refused_iff {f : State → State} {o : Host.Outcome State Fault Refusal} : onNext f o = .refused q ↔ o = .refused q := by
  cases o <;> simp [onNext]

/-- A refused step is refused by the fetch or by the instruction it fetches: `settle` refuses nothing. -/
theorem step_refused (h : step s = .refused q) :
    s.fetchNext = .refuse q ∨ ∃ i, s.fetchNext = .instr i ∧ exec i s = .refused q := by
  unfold step at h
  split at h
  · rename_i r hf
    cases h
    exact .inl hf
  · cases h
  · rename_i i hf
    exact .inr ⟨i, hf, onNext_refused_iff.mp h⟩

/-- The refusing branches of the fetch are the first three rows of R181. -/
theorem refusedAtFetch_of_fetchNext (h : s.fetchNext = .refuse q) : refusedAtFetch s q := by
  unfold State.fetchNext at h
  split at h
  · rename_i ha
    cases h
    exact .inl ⟨rfl, ha⟩
  · split at h
    · cases h
    · split at h
      · rename_i hf
        cases h
        exact .inr (.inl ⟨rfl, hf⟩)
      · rename_i iw hf
        split at h
        · rename_i e hd
          cases h
          exact .inr (.inr ⟨iw, hf, rfl, fun ⟨i, hi⟩ => nomatch hd.symm.trans hi⟩)
        · cases h

/-- A store is refused by the checks of its address alone. -/
theorem execSw_refused_iff {rs1 rs2 : Reg} {imm : BitVec 16} :
    execSw rs1 rs2 imm s = .refused q ↔ s.dataCell (s.effectiveAddress rs1 imm) = .error q := by
  unfold execSw
  cases s.dataCell (s.effectiveAddress rs1 imm) with
  | error r => simp
  | ok a => simp

/-- Of the ways an instruction can end, only the two data accesses can be refused, by the checks of their address. -/
theorem exec_refused {i : Instr} (h : exec i s = .refused q) :
    ∃ rd rs1 imm, (i = .lw rd rs1 imm ∨ i = .sw rs1 rd imm) ∧ s.dataCell (addressOf s rs1 imm) = .error q := by
  rcases exec_cases i s with ⟨rd, v, -, -, e⟩ | e | ⟨off, -, e⟩ | ⟨off, -, e⟩ | ⟨rd, rs1, imm, hi, e⟩ | ⟨rs1, rs2, imm, hi, e⟩ <;>
    rw [e] at h
  · cases h
  · cases h
  · cases h
  · cases h
  · exact ⟨rd, rs1, imm, .inl hi, s.effectiveAddress_eq rs1 imm ▸ execLw_refused_iff.mp h⟩
  · exact ⟨rs2, rs1, imm, .inr hi, s.effectiveAddress_eq rs1 imm ▸ execSw_refused_iff.mp h⟩

/-- R181 under every addressing and alignment: what remains to say is which refusals the checks of an access answer. -/
theorem step_refused_cases (h : step s = .refused q) :
    refusedAtFetch s q ∨ ∃ ea, accesses s ea ∧ s.dataCell ea = .error q := by
  obtain hf | ⟨i, hf, hexec⟩ := step_refused h
  · exact .inl (refusedAtFetch_of_fetchNext hf)
  · obtain ⟨rd, rs1, imm, rfl | rfl, hcell⟩ := exec_refused hexec
    · exact .inr ⟨_, ⟨rd, rs1, imm, .inl hf, rfl⟩, hcell⟩
    · exact .inr ⟨_, ⟨rd, rs1, imm, .inr hf, rfl⟩, hcell⟩

theorem outsideData_iff {a : Nat} : outsideData s a ↔ ¬ (s.cfg.dmemBase ≤ a ∧ a + 3 < s.cfg.dmemBase + s.cfg.dmemSize) := by
  unfold outsideData
  omega

/-- The two refusals of the default data memory, the alignment tested first (60_exceptions.md R183). -/
theorem State.dataCell_error_of_refuse (hb : s.cfg.dmemAddressing = .byte) (hm : s.cfg.dmemMisaligned = .refuse)
    (h : s.dataCell ea = .error q) :
    (q = .misalignedData ea ∧ ea.toNat % 4 ≠ 0) ∨ (q = .dataOutOfRange ea ∧ ea.toNat % 4 = 0 ∧ outsideData s ea.toNat) := by
  by_cases ha : ea.toNat % 4 = 0
  · by_cases hr : s.cfg.dmemBase ≤ ea.toNat ∧ ea.toNat + 3 < s.cfg.dmemBase + s.cfg.dmemSize
    · cases h.symm.trans (State.dataCell_aligned_inside hb hm ha hr)
    · cases h.symm.trans (State.dataCell_aligned_outside hb hm ha hr)
      exact .inr ⟨rfl, ha, outsideData_iff.mpr hr⟩
  · cases h.symm.trans (State.dataCell_misaligned hb hm ha)
    exact .inl ⟨rfl, ha⟩

/-- Settles O52: a refusal comes from the fetch or from the checks of an access, and each of them names its situation. -/
theorem refusalsAreTheListedOnes : Obligations.RefusalsAreTheListedOnes := by
  intro s q hb hm h
  obtain hf | ⟨ea, hacc, hcell⟩ := step_refused_cases h
  · exact .inl hf
  · exact .inr ⟨ea, hacc, State.dataCell_error_of_refuse hb hm hcell⟩

end Sys2Proof.Machine
end

section
/-! What a launch leaves in the registers (70_reset_and_hazards.md R200). -/

namespace Sys2Proof.Machine

variable {r : Reg}

/-- A register that is not a hardwired register 0 reads what it holds (10_state.md R22). -/
theorem State.reg_eq_regs {s : State} (h : r ≠ 0 ∨ s.cfg.r0Hardwired = false) : s.reg r = s.regs[r.val] := by
  have hz : ¬ s.readsZero r = true := by
    rw [State.readsZero_iff]
    rintro ⟨hr, hc⟩
    simp [hr, hc] at h
  exact if_neg hz

/-- The only register for which the launch does not keep the given value is a hardwired register 0. -/
theorem State.launch_regs (cfg : Config) (regs : Vector Word 32) (program : List Word) (image : Memory)
    (h : r ≠ 0 ∨ cfg.r0Hardwired = false) : (State.launch cfg regs program image).regs[r.val] = regs[r.val] := by
  rw [State.launch]
  split
  case isTrue hc =>
    have hr : r ≠ 0 := h.resolve_right (by simp [hc])
    exact Vector.getElem_set_ne (by decide) r.isLt (Ne.symm (Fin.val_ne_of_ne hr))
  case isFalse => rfl

/-- Settles O43: `pc` and the memories are fields of the launch as given, and a register reads what the launch left in it. -/
theorem launchSetsTheResetState : Obligations.LaunchSetsTheResetState := by
  intro cfg regs program image
  refine ⟨rfl, fun hc => State.reg_zero_of_hardwired hc, fun r h => ?_, fun _ => rfl, rfl⟩
  rw [State.reg_eq_regs h, State.launch_regs cfg regs program image h]

end Sys2Proof.Machine
end

section
/-! Decoding and encoding undo each other (30_encoding.md sections 1, 3 and 5): every form of word has its operands back from its fields,
and only bits that R74 says are ignored are lost on the way. -/

namespace Sys2Proof.Machine

variable {cfg : Config} {iw : Word} {i : Instr}

/-! ### Decoding an encoded word, one lemma per form -/

theorem decode_encodeI {op : BitVec 6} {mk : Reg → Reg → BitVec 16 → Instr} (hw : IWordsDecode op mk) (rd rs1 : Reg)
    (imm : BitVec 16) : decode cfg (encodeI op rs1 rd imm) = .ok (mk rd rs1 imm) :=
  calc decode cfg (encodeI op rs1 rd imm) = .ok (readI mk (encodeI op rs1 rd imm)) := hw cfg _ (opcodeField_encodeI ..)
    _ = .ok (mk rd rs1 imm) := by simp [readI]

theorem decode_encodeBranch {op : BitVec 6} {mk : Reg → BitVec 16 → Instr} (hw : BranchWordsDecode op mk) (rs1 : Reg)
    (off : BitVec 16) : decode cfg (encodeI op rs1 0 off) = .ok (mk rs1 off) :=
  calc decode cfg (encodeI op rs1 0 off) = .ok (readBranch mk (encodeI op rs1 0 off)) := hw cfg _ (opcodeField_encodeI ..)
    _ = .ok (mk rs1 off) := by simp [readBranch]

theorem decode_encodeJ {op : BitVec 6} {mk : BitVec 26 → Instr} (hw : JWordsDecode op mk) (off : BitVec 26) :
    decode cfg (encodeJ op off) = .ok (mk off) :=
  calc decode cfg (encodeJ op off) = .ok (readJ mk (encodeJ op off)) := hw cfg _ (opcodeField_encodeJ ..)
    _ = .ok (mk off) := by simp [readJ]

theorem decode_encodeR {func : BitVec 11} {mk : Reg → Reg → Reg → Instr} (hw : RWordsDecode func mk)
    (hk : 6 ≤ cfg.funcMatchBits) (rd rs1 rs2 : Reg) : decode cfg (encodeR func rs1 rs2 rd) = .ok (mk rd rs1 rs2) :=
  calc decode cfg (encodeR func rs1 rs2 rd) = .ok (readR mk (encodeR func rs1 rs2 rd)) :=
        hw cfg _ hk (opcodeField_encodeR ..) (funcField_encodeR ..)
    _ = .ok (mk rd rs1 rs2) := by simp [readR]

theorem decode_encode_sw (rs1 rs2 : Reg) (imm : BitVec 16) : decode cfg (encodeI opSw rs1 rs2 imm) = .ok (.sw rs1 rs2 imm) := by
  rw [decode_sw_of_opcode (opcodeField_encodeI ..)]
  simp [readStore]

theorem decode_encode_srai (hwf : cfg.wf = true) (ha : cfg.admitSra = true) (rd rs1 : Reg) (uimm : BitVec 16) :
    decode cfg (encodeI cfg.sraiOpcode rs1 rd uimm) = .ok (.srai rd rs1 uimm) := by
  rw [decode_of_sraiOpcode hwf ha (opcodeField_encodeI ..)]
  simp [readI]

theorem decode_encode_sra (hwf : cfg.wf = true) (ha : cfg.admitSra = true) (rd rs1 rs2 : Reg) :
    decode cfg (encodeR cfg.sraFunc rs1 rs2 rd) = .ok (.sra rd rs1 rs2) := by
  rw [decode_of_sraFunc hwf ha (opcodeField_encodeR ..) (funcField_encodeR ..)]
  simp [readR]

/-- Settles O2: an encoded word has its row of the maps, or the free code of `sra` or `srai`, and its fields are the operands. -/
theorem decodeOfEncode : Obligations.DecodeOfEncode := by
  intro cfg i hwf hi
  obtain ⟨hk, -⟩ := Config.codesDistinct_of_wf hwf
  cases i
  case sra rd rs1 rs2 => exact decode_encode_sra hwf hi rd rs1 rs2
  case srai rd rs1 uimm => exact decode_encode_srai hwf hi rd rs1 uimm
  case sw rs1 rs2 imm => exact decode_encode_sw rs1 rs2 imm
  case nop => exact decode_nop_of_opcode (opcodeField_encodeJ ..)
  case beqz | bnez => exact decode_encodeBranch (branchWordsDecode_of_row (by decide) rfl) _ _
  case j | jal => exact decode_encodeJ (jWordsDecode_of_row (by decide) rfl) _
  case add | sub | and | or | xor | sll | srl | sne | sle | sge =>
    exact decode_encodeR (rWordsDecode_of_row (by decide) rfl) hk _ _ _
  all_goals exact decode_encodeI (iWordsDecode_of_row (by decide) rfl) _ _ _

/-! ### Encoding a decoded word -/

/-- Only `sra` and `srai` have a condition, which no row of the two maps makes. -/
theorem wf_of_mapRow (cfg : Config) (iw : Word) :
    (∀ row ∈ funcMap, (row.2 iw).wf cfg = true) ∧ ∀ row ∈ opcodeMap, (row.2 iw).wf cfg = true := by
  constructor
  · simp [funcMap, readR, Instr.wf]
  · simp [opcodeMap, readI, readStore, readBranch, readJ, Instr.wf]

/-- The decoder answers only instructions of the machine (30_encoding.md R73). -/
theorem wf_of_decode (h : decode cfg iw = .ok i) : i.wf cfg = true := by
  obtain ⟨hfunc, hopcode⟩ := wf_of_mapRow cfg iw
  obtain ⟨-, ⟨row, hrow, -, rfl⟩ | ⟨ha, -, rfl⟩⟩ | ⟨-, ⟨row, hrow, -, rfl⟩ | ⟨ha, -, rfl⟩⟩ := decode_ok_cases h
  · exact hfunc row hrow
  · exact ha
  · exact hopcode row hrow
  · exact ha

/-- Settles O3: encoding keeps the bits used, and all but branches and `nop` use the whole word. -/
theorem encodeOfDecode : Obligations.EncodeOfDecode := by
  intro cfg iw i _ hk h
  refine ⟨wf_of_decode h, (encode_of_decode hk h).trans ?_⟩
  cases i
  case beqz | bnez | nop => rfl
  all_goals exact BitVec.and_allOnes

end Sys2Proof.Machine
end

section
/-! The invariant `State.Inv` at reset, at a launch and after a step (10_state.md sections 1 and 2, 20_memory.md sections 1 and 2). -/

namespace Sys2Proof.Machine

variable {s t : State} {i : Instr}

/-- A write to a register leaves the cell of a hardwired register 0 as it is (10_state.md R22). -/
theorem State.setReg_cell_zero (h : s.cfg.r0Hardwired = true) (r : Reg) (v : Word) : (s.setReg r v).regs[0] = s.regs[0] := by
  by_cases hr : r = 0
  · rw [hr, State.setReg_zero_of_hardwired h]
  · have hz : ¬ s.readsZero r = true := fun hz => hr ((s.readsZero_iff r).mp hz).1
    have hne : r.val ≠ 0 := fun e => hr (Fin.ext e)
    rw [State.setReg, if_neg hz]
    exact Vector.getElem_set_ne r.isLt (by decide) hne

/-- Registers are written by `setReg` alone, so every instruction leaves the cell of a hardwired register 0 as it is. -/
theorem exec_cell_zero (h0 : s.cfg.r0Hardwired = true) (h : exec i s = .next t) : t.regs[0] = s.regs[0] := by
  rcases exec_cases i s with ⟨rd, v, -, -, e⟩ | e | ⟨off, -, e⟩ | ⟨off, -, e⟩ | ⟨rd, rs1, imm, -, e⟩ | ⟨rs1, rs2, imm, -, e⟩ <;>
    rw [e] at h
  · cases h; exact State.setReg_cell_zero h0 rd v
  · cases h; rfl
  · cases h; rfl
  · cases h; exact State.setReg_cell_zero h0 31 _
  · obtain ⟨a, -, rfl⟩ := execLw_next h; exact State.setReg_cell_zero h0 rd _
  · obtain ⟨a, -, rfl⟩ := execSw_next h; rfl

/-- Settles O48: `exec` changes no program or parameter and keeps the data memory's form and register 0's cell, and `settle`
keeps the number of transfers owed. -/
theorem stepKeepsTheInvariant : Obligations.StepKeepsTheInvariant := by
  intro s t hs h
  obtain ⟨-, rfl⟩ | ⟨i, u, -, hexec, rfl⟩ := step_next h
  · exact hs
  · obtain ⟨hwf, hdmem, himem, hpending, hzero⟩ := hs
    obtain ⟨himem', hcfg', hpending'⟩ := exec_sameLaunch hexec
    refine ⟨?params, ?data, ?program, ?owed, ?register⟩
    case params => rw [State.settle_cfg, hcfg']; exact hwf
    case data => rw [State.settle_dmem]; exact exec_dmem_wf hexec hdmem
    case program => rw [State.settle_imem, himem']; exact himem
    case owed => rw [State.settle_pending_length s i u hpending hpending', State.settle_cfg, hcfg']
    case register =>
      rw [State.settle_cfg, State.settle_regs, hcfg']
      exact fun h0 => (exec_cell_zero h0 hexec).trans (hzero h0)

/-- Settles O47: the launch gives `pending` its length, clears register 0's cell, and loads a program in canonical form. -/
theorem launchMeetsTheInvariant : Obligations.LaunchMeetsTheInvariant := by
  intro cfg regs program image hwf himage
  refine ⟨hwf, himage, Memory.wf_ofWords _ _ program, List.length_replicate, fun h0 => ?_⟩
  have h0' : cfg.r0Hardwired = true := h0
  simp [State.launch, h0']

/-- Settles O46: the default parameters are allowed ones, and nothing is loaded or owed. -/
theorem resetMeetsTheInvariant : Obligations.ResetMeetsTheInvariant :=
  ⟨by decide, State.reset_memories_wf.1, State.reset_memories_wf.2, rfl, fun _ => rfl⟩

end Sys2Proof.Machine
end

section
/-! `lw` and `sw` in the other data memories (20_memory.md R40, R47), and what a load sees of a store (20_memory.md sections 2 and 6). -/

namespace Sys2Proof.Machine

variable {s t u u' : State} {rd rs1 rs2 : Reg} {imm : BitVec 16} {a c : Nat} {order : ByteOrder} {q : Refusal} {ea : Word} {v : Word}

/-! ### Accesses with a range test alone -/

/-- What the three other data memories have in common: the range test is the only check, at an address `a` and for the cells from `c` up. -/
def RangeTested (s : State) (ea : Word) (a c : Nat) : Prop :=
  s.dataCell ea = if s.inDataMemory a then .ok c else .error (.dataOutOfRange ea)

theorem RangeTested.inside (h : RangeTested s ea a c) (hr : s.cfg.dmemBase ≤ a ∧ a + 3 < s.cfg.dmemBase + s.cfg.dmemSize) :
    s.dataCell ea = .ok c :=
  Eq.trans h (if_pos ((s.inDataMemory_iff a).mpr hr))

theorem RangeTested.outside (h : RangeTested s ea a c) (hr : ¬ (s.cfg.dmemBase ≤ a ∧ a + 3 < s.cfg.dmemBase + s.cfg.dmemSize)) :
    s.dataCell ea = .error (.dataOutOfRange ea) :=
  Eq.trans h (if_neg (mt (s.inDataMemory_iff a).mp hr))

/-- A word-indexed memory tests the index and uses the four cells of its word (log 13). -/
theorem rangeTested_word (h : s.cfg.dmemAddressing = .word) (ea : Word) : RangeTested s ea ea.toNat (4 * ea.toNat) :=
  State.dataCell_word h ea

/-- With the low bits ignored the cleared address is the one tested and used (log 14). -/
theorem rangeTested_ignoreLowBits (h : s.cfg.dmemAddressing = .byte) (hm : s.cfg.dmemMisaligned = .ignoreLowBits) (ea : Word) :
    RangeTested s ea (ea &&& 0xFFFFFFFC).toNat (ea &&& 0xFFFFFFFC).toNat := by
  rw [RangeTested, toNat_clearLow]
  exact State.dataCell_ignoreLowBits h hm ea

/-- A split access is tested and made at the address itself (log 15). -/
theorem rangeTested_split (h : s.cfg.dmemAddressing = .byte) (hm : s.cfg.dmemMisaligned = .split) (ea : Word) :
    RangeTested s ea ea.toNat ea.toNat :=
  State.dataCell_split h hm ea

theorem exec_lw_of_rangeTested (h : RangeTested s (addressOf s rs1 imm) a c) (ho : s.dataOrder = order) :
    if s.cfg.dmemBase ≤ a ∧ a + 3 < s.cfg.dmemBase + s.cfg.dmemSize then
      ∃ t, exec (.lw rd rs1 imm) s = .next t ∧ WritesReg s t rd (bytesAt s order c)
    else exec (.lw rd rs1 imm) s = .refused (.dataOutOfRange (addressOf s rs1 imm)) := by
  split_ifs with hr
  · exact ho ▸ exec_lw_writesReg (h.inside hr)
  · exact exec_lw_refused (h.outside hr)

theorem exec_sw_of_rangeTested (h : RangeTested s (addressOf s rs1 imm) a c) (ho : s.dataOrder = order) :
    if s.cfg.dmemBase ≤ a ∧ a + 3 < s.cfg.dmemBase + s.cfg.dmemSize then
      ∃ t, exec (.sw rs1 rs2 imm) s = .next t ∧ StoresWord s t order c (s.reg rs2)
    else exec (.sw rs1 rs2 imm) s = .refused (.dataOutOfRange (addressOf s rs1 imm)) := by
  split_ifs with hr
  · exact ho ▸ exec_sw_storesWord (h.inside hr)
  · exact exec_sw_refused (h.outside hr)

/-- Settles O18: in each of the three data memories the range test decides alone. -/
theorem lwUnderTheOtherDataMemories : Obligations.LwUnderTheOtherDataMemories := fun _ _ _ _ =>
  ⟨fun h => exec_lw_of_rangeTested (rangeTested_word h _) (State.dataOrder_word h),
    fun h hm => exec_lw_of_rangeTested (rangeTested_ignoreLowBits h hm _) (State.dataOrder_byte h),
    fun h hm => exec_lw_of_rangeTested (rangeTested_split h hm _) (State.dataOrder_byte h)⟩

/-- Settles O20: as for `lw`, with the ending of a store. -/
theorem swUnderTheOtherDataMemories : Obligations.SwUnderTheOtherDataMemories := fun _ _ _ _ =>
  ⟨fun h => exec_sw_of_rangeTested (rangeTested_word h _) (State.dataOrder_word h),
    fun h hm => exec_sw_of_rangeTested (rangeTested_ignoreLowBits h hm _) (State.dataOrder_byte h),
    fun h hm => exec_sw_of_rangeTested (rangeTested_split h hm _) (State.dataOrder_byte h)⟩

/-! ### Their refusals -/

theorem RangeTested.refusal (h : RangeTested s ea a c) (he : s.dataCell ea = .error q) :
    q = .dataOutOfRange ea ∧ outsideData s a := by
  by_cases hr : s.cfg.dmemBase ≤ a ∧ a + 3 < s.cfg.dmemBase + s.cfg.dmemSize
  · cases he.symm.trans (h.inside hr)
  · cases he.symm.trans (h.outside hr)
    exact ⟨rfl, outsideData_iff.mpr hr⟩

/-- The data memories beside the default: word-indexed, or byte-addressed with one of two answers to a misaligned address. -/
theorem otherDataMemory_cases (h : ¬ (s.cfg.dmemAddressing = .byte ∧ s.cfg.dmemMisaligned = .refuse)) :
    s.cfg.dmemAddressing = .word ∨ (s.cfg.dmemAddressing = .byte ∧ s.cfg.dmemMisaligned = .ignoreLowBits) ∨
      (s.cfg.dmemAddressing = .byte ∧ s.cfg.dmemMisaligned = .split) := by
  cases ha : s.cfg.dmemAddressing with
  | word => exact .inl rfl
  | byte =>
    cases hm : s.cfg.dmemMisaligned with
    | refuse => exact absurd ⟨ha, hm⟩ h
    | ignoreLowBits => exact .inr (.inl ⟨rfl, rfl⟩)
    | split => exact .inr (.inr ⟨rfl, rfl⟩)

/-- Settles O60: past the fetch only the range test of an access refuses, at the address each memory tests. -/
theorem refusalsUnderTheOtherDataMemories : Obligations.RefusalsUnderTheOtherDataMemories := by
  intro s q hother h
  obtain hf | ⟨ea, hacc, hcell⟩ := step_refused_cases h
  · exact .inl hf
  · refine .inr ⟨ea, hacc, ?_⟩
    obtain hw | ⟨hb, hm⟩ | ⟨hb, hm⟩ := otherDataMemory_cases hother
    · rw [if_neg (by simp [hw])]
      exact (rangeTested_word hw ea).refusal hcell
    · rw [if_pos ⟨hb, hm⟩]
      exact (rangeTested_ignoreLowBits hb hm ea).refusal hcell
    · rw [if_neg (by simp [hm])]
      exact (rangeTested_split hb hm ea).refusal hcell

/-! ### A load after a store -/

/-- What a later load can see of a store that completed: the parameters and registers are as before, its cells hold the value, and no
word outside them has changed. -/
theorem exec_sw_next (h : exec (.sw rs1 rs2 imm) s = .next t) :
    ∃ a, s.dataCell (addressOf s rs1 imm) = .ok a ∧ t.cfg = s.cfg ∧ SameRegs s t ∧ t.memRead a = s.reg rs2 ∧
      ∀ x, x + 4 ≤ a ∨ a + 4 ≤ x → t.memRead x = s.memRead x := by
  obtain ⟨a, hcell, rfl⟩ := execSw_next h
  rw [s.effectiveAddress_eq] at hcell
  have hadvance : ∀ x, (s.memWrite a (s.reg rs2)).advance.memRead x = (s.memWrite a (s.reg rs2)).memRead x := fun x =>
    State.memRead_congr rfl rfl x
  refine ⟨a, hcell, rfl, fun _ => rfl, ?_, fun x hx => ?_⟩
  · rw [hadvance, State.memRead_memWrite_same]
  · rw [hadvance, State.memRead_memWrite_other s _ hx]

/-- Settles O53: the checks depend on the parameters alone, so the load reads the cells the store wrote. -/
theorem loadAfterStoreReturnsTheStoredWord : Obligations.LoadAfterStoreReturnsTheStoredWord := by
  intro rs1 rs2 rd rb imm imm' s t hstore haddr
  obtain ⟨a, hcell, hcfg, -, hread, -⟩ := exec_sw_next hstore
  have hcell' : t.dataCell (addressOf t rb imm') = .ok a := by
    rw [haddr, State.dataCell_congr hcfg, hcell]
  rw [← hread, State.memRead_eq_bytesAt]
  exact exec_lw_writesReg hcell'

/-- In the default data memory an access that passes the checks uses the cells from its aligned effective address up. -/
theorem State.dataCell_refuse_ok (hb : s.cfg.dmemAddressing = .byte) (hm : s.cfg.dmemMisaligned = .refuse)
    (h : s.dataCell ea = .ok a) : a = ea.toNat ∧ ea.toNat % 4 = 0 := by
  rw [State.dataCell_refuse hb hm] at h
  split_ifs at h with ha hr
  exact ⟨(Except.ok.inj h).symm, not_not.mp ha⟩

/-- Two aligned words at different addresses have no byte in common. -/
theorem disjoint_of_aligned_ne {x y : Word} (hx : x.toNat % 4 = 0) (hy : y.toNat % 4 = 0) (h : x ≠ y) :
    x.toNat + 4 ≤ y.toNat ∨ y.toNat + 4 ≤ x.toNat := by
  have hne : x.toNat ≠ y.toNat := fun e => h (BitVec.eq_of_toNat_eq e)
  omega

/-- The same value written to the same register of states that read alike leaves them reading alike. -/
theorem RegsWith.congr (hu : RegsWith s u rd v) (hu' : RegsWith t u' rd v) (hcfg : t.cfg = s.cfg) (hregs : SameRegs s t) :
    SameRegs u u' := by
  intro r
  obtain ⟨hrd, hother⟩ := hu
  obtain ⟨hrd', hother'⟩ := hu'
  by_cases h : r = rd
  · rw [h, hrd, hrd', hcfg]
  · rw [hother r h, hother' r h, hregs r]

/-- Settles O54: the two accesses use disjoint cells, so the load finds the same word there. -/
theorem storeLeavesOtherWordsAlone : Obligations.StoreLeavesOtherWordsAlone := by
  intro rs1 rs2 rd rb imm imm' s t u hb hm hstore hne hload
  obtain ⟨a, hcell, hcfg, hregs, -, hother⟩ := exec_sw_next hstore
  obtain ⟨c, hcell', rfl⟩ := execLw_next hload
  rw [s.effectiveAddress_eq] at hcell'
  obtain ⟨rfl, ha⟩ := State.dataCell_refuse_ok hb hm hcell
  obtain ⟨rfl, hc⟩ := State.dataCell_refuse_ok hb hm hcell'
  have haddr : addressOf t rb imm' = addressOf s rb imm' := by rw [addressOf, addressOf, hregs rb]
  have hcell'' : t.dataCell (addressOf t rb imm') = .ok (addressOf s rb imm').toNat := by
    rw [haddr, State.dataCell_congr hcfg, hcell']
  obtain ⟨u', hu', hwrites, -⟩ := exec_lw_writesReg (rd := rd) hcell''
  rw [← State.memRead_eq_bytesAt, hother _ (disjoint_of_aligned_ne hc ha hne)] at hwrites
  exact ⟨u', hu', RegsWith.congr (s.setReg_regsWith rd _) hwrites hcfg hregs⟩

end Sys2Proof.Machine
end

section
/-! Fetch and the step: what the fetch answers at an aligned pc (10_state.md R25, 20_memory.md R42 and R43), for a program a launch has
loaded (70_reset_and_hazards.md section 1) and for a word placed at pc. -/

namespace Sys2Proof.Machine

variable {s : State} {iw : Word} {i : Instr} {a k : Nat}

/-! ### What a fetch from the instruction memory answers -/

theorem State.inInstrMemory_iff (s : State) (a : Nat) :
    s.inInstrMemory a = true ↔ s.cfg.imemBase ≤ a ∧ a + 3 < s.cfg.imemBase + s.cfg.imemSize := by
  simp [State.inInstrMemory]

theorem State.ifetch?_inside (h : s.cfg.imemBase ≤ a ∧ a + 3 < s.cfg.imemBase + s.cfg.imemSize) :
    s.ifetch? a = s.imem.word? s.cfg.byteOrder a :=
  if_pos ((s.inInstrMemory_iff a).mpr h)

theorem State.ifetch?_outside (h : ¬ (s.cfg.imemBase ≤ a ∧ a + 3 < s.cfg.imemBase + s.cfg.imemSize)) : s.ifetch? a = none :=
  if_neg (mt (s.inInstrMemory_iff a).mp h)

/-- One unfilled byte is enough for a word to be unfilled (log 6). -/
theorem Memory.word?_of_unfilled {m : Memory} (order : ByteOrder) (hk : k < 4) (h : m.byte? (a + k) = none) : m.word? order a = none := by
  interval_cases k <;> simp_all [Memory.word?]

theorem State.ifetch?_unfilled (hk : k < 4) (h : s.imem.byte? (a + k) = none) : s.ifetch? a = none := by
  unfold State.ifetch?
  split
  · exact Memory.word?_of_unfilled _ hk h
  · rfl

theorem State.fetchNext_outOfRange (ha : s.pc.toNat % 4 = 0) (hh : s.cfg.haltPc ≠ some s.pc) (hf : s.ifetch? s.pc.toNat = none) :
    s.fetchNext = .refuse (.fetchOutOfRange s.pc) := by
  simp [State.fetchNext, ha, hh, hf]

/-- Settles O38: each of the three ways out of the program leaves the fetch without a word. -/
theorem fetchOutOfRangeIsRefused : Obligations.FetchOutOfRangeIsRefused := by
  intro s ha hh hout
  refine step_of_fetchNext_refuse (State.fetchNext_outOfRange ha hh ?_)
  obtain hlow | hhigh | ⟨k, hk, hbyte⟩ := hout
  · exact State.ifetch?_outside fun ⟨hbase, _⟩ => absurd hbase (Nat.not_le.mpr hlow)
  · exact State.ifetch?_outside fun ⟨_, hend⟩ => absurd hend (Nat.not_lt.mpr hhigh)
  · exact State.ifetch?_unfilled hk hbyte

/-- Without delay slots the step is the execution of what the fetch finds. -/
theorem step_of_fetchNext_noSlots (h0 : s.cfg.branchDelaySlots = 0) (h : s.fetchNext = .instr i) : step s = exec i s :=
  (step_of_fetchNext h).trans (onNext_settle_noSlots h0 i _)

/-- Settles O40: four filled bytes inside the instruction memory are fetched as the word they make. -/
theorem stepRunsTheDecodedInstruction : Obligations.StepRunsTheDecodedInstruction := by
  intro s b0 b1 b2 b3 i ha hh hbase hend h0 h1 h2 h3 hdec
  have hword : s.ifetch? s.pc.toNat = some (wordOfBytes s.cfg.byteOrder b0 b1 b2 b3) :=
    (State.ifetch?_inside ⟨hbase, hend⟩).trans (Memory.word?_of_bytes h0 h1 h2 h3)
  have hdec' : decode s.cfg (wordOfBytes s.cfg.byteOrder b0 b1 b2 b3) = .ok i := by
    rw [← hdec]
    cases s.cfg.byteOrder <;> rfl
  have hfetch : s.fetchNext = .instr i := fetchNext_of_ifetch ha hh hword hdec'
  exact ⟨step_of_fetchNext hfetch, fun hslots => step_of_fetchNext_noSlots hslots hfetch⟩

/-- Settles O45: the fields are those of the reset state, and its first fetch finds no byte at pc 0. -/
theorem resetHoldsNoProgram : Obligations.ResetHoldsNoProgram := by
  refine ⟨rfl, rfl, fun r hr => ?_, fun _ => rfl, fun _ => rfl, rfl, ?_⟩
  · have hne : 0 ≠ r.val := fun e => hr (Fin.ext e.symm)
    rw [State.reg_eq_regs (.inl hr)]
    exact (Vector.getElem_set_ne (by decide) r.isLt hne).trans (Vector.getElem_replicate r.isLt)
  · exact step_of_fetchNext_refuse (State.fetchNext_outOfRange rfl nofun (State.ifetch?_unfilled (k := 0) (by decide) rfl))

/-! ### The launched program -/

section
variable {cfg : Config} {regs : Vector Word 32} {program : List Word} {image : Memory}

theorem State.launch_ifetch?_at (hfit : 4 * program.length ≤ cfg.imemSize) (h : k < program.length) :
    (State.launch cfg regs program image).ifetch? (cfg.imemBase + 4 * k) = some program[k] := by
  have hin : cfg.imemBase ≤ cfg.imemBase + 4 * k ∧ cfg.imemBase + 4 * k + 3 < cfg.imemBase + cfg.imemSize := by omega
  exact (State.ifetch?_inside hin).trans (Memory.word?_ofWords_at cfg.byteOrder cfg.imemBase program k h)

/-- Below the first word lies nothing of the instruction memory, and behind the last word nothing is filled. -/
theorem State.launch_ifetch?_beside (h : a < cfg.imemBase ∨ cfg.imemBase + 4 * program.length < a + 4) :
    (State.launch cfg regs program image).ifetch? a = none := by
  obtain hlow | hhigh := h
  · exact State.ifetch?_outside fun ⟨hbase, _⟩ => absurd hbase (Nat.not_le.mpr hlow)
  · exact State.ifetch?_unfilled (k := 3) (by decide) (Memory.byte?_ofWords_after _ _ _ (by omega))

/-- The addresses of an aligned program's words, and of no others, are its multiples of 4. -/
theorem State.launch_ifetch?_aligned (hfit : 4 * program.length ≤ cfg.imemSize) (hbase : cfg.imemBase % 4 = 0) (ha : a % 4 = 0) :
    (State.launch cfg regs program image).ifetch? a =
      if a < cfg.imemBase then none else program[(a - cfg.imemBase) / 4]? := by
  split_ifs with hlow
  · exact State.launch_ifetch?_beside (.inl hlow)
  · obtain ⟨k, rfl⟩ : ∃ k, a = cfg.imemBase + 4 * k := ⟨(a - cfg.imemBase) / 4, by omega⟩
    rw [show (cfg.imemBase + 4 * k - cfg.imemBase) / 4 = k by omega]
    by_cases hk : k < program.length
    · rw [State.launch_ifetch?_at hfit hk, List.getElem?_eq_getElem hk]
    · rw [State.launch_ifetch?_beside (.inr (by omega)), List.getElem?_eq_none (Nat.not_lt.mp hk)]

end

/-- Settles O44: the three clauses are the fetch at a word of the program, beside the program, and at a multiple of 4. -/
theorem launchedProgramIsFetched : Obligations.LaunchedProgramIsFetched := fun _ _ _ _ hfit =>
  ⟨fun _ h => State.launch_ifetch?_at hfit h, fun _ h => State.launch_ifetch?_beside h,
    fun hbase _ ha => State.launch_ifetch?_aligned hfit hbase ha⟩

/-! ### A word placed at pc -/

/-- Placing a word changes no parameter that the decoder uses. -/
theorem decode_placeAtPc (s : State) (iw iw' : Word) : decode (s.placeAtPc iw).cfg iw' = decode s.cfg iw' := rfl

theorem State.placeAtPc_haltPc (s : State) (iw : Word) : (s.placeAtPc iw).cfg.haltPc ≠ some (s.placeAtPc iw).pc := by
  show (if s.cfg.haltPc = some s.pc then none else s.cfg.haltPc) ≠ some s.pc
  split_ifs with h
  · nofun
  · exact h

/-- Where pc lies outside the instruction memory this is widened to all addresses, which hold every aligned word. -/
theorem State.placeAtPc_ifetch? (iw : Word) (ha : s.pc.toNat % 4 = 0) : (s.placeAtPc iw).ifetch? (s.placeAtPc iw).pc.toNat = some iw := by
  have hin : (s.placeAtPc iw).cfg.imemBase ≤ s.pc.toNat ∧
      s.pc.toNat + 3 < (s.placeAtPc iw).cfg.imemBase + (s.placeAtPc iw).cfg.imemSize := by
    by_cases h : s.inInstrMemory s.pc.toNat = true
    · simpa [State.placeAtPc, h] using (s.inInstrMemory_iff _).mp h
    · have hend : s.pc.toNat + 3 < 2 ^ 32 := by have hlt := s.pc.isLt; omega
      simpa [State.placeAtPc, h] using hend
  exact (State.ifetch?_inside hin).trans (Memory.word?_putWord_same s.imem s.cfg.byteOrder s.pc.toNat iw)

theorem State.placeAtPc_fetchNext (ha : s.pc.toNat % 4 = 0) (hd : decode s.cfg iw = .ok i) : (s.placeAtPc iw).fetchNext = .instr i :=
  fetchNext_of_ifetch ha (s.placeAtPc_haltPc iw) (State.placeAtPc_ifetch? iw ha) ((decode_placeAtPc s iw iw).trans hd)

theorem State.withFetchWord_32 (s : State) (w : Nat) : s.withFetchWord 32 w = s.placeAtPc (BitVec.ofNat 32 w) := by
  have hw : BitVec.ofNat 32 (w % 2 ^ 32) = BitVec.ofNat 32 w := BitVec.eq_of_toNat_eq (by simp)
  rw [State.withFetchWord, hw]

/-- Settles O42: the fetch finds the placed word, and without delay slots the step is its execution. -/
theorem placedWordRunsNext : Obligations.PlacedWordRunsNext := by
  intro s w i ha h0 hd
  rw [State.withFetchWord_32]
  exact step_of_fetchNext_noSlots h0 (State.placeAtPc_fetchNext ha hd)

end Sys2Proof.Machine
end

section
/-! Where an instruction goes on (10_state.md R25, 43_control_transfer.md R154 and R155), the runs that stay where they are
(70_reset_and_hazards.md section 2), and the transfer that a delay slot postpones (43_control_transfer.md R157). -/

namespace Sys2Proof.Machine

variable {s t u : State} {i : Instr}

/-! ### Targets -/

theorem State.target_ofInt (s : State) (off : Int) : s.pc + s.cfg.targetBaseOffset + BitVec.ofInt 32 off = targetOf s off := by
  rw [word_add_ofInt, targetOf, BitVec.toNat_add]
  apply BitVec.eq_of_toNat_eq
  simp

/-- Settles O55: an instruction ends in an advance or in a transfer by its own offset. -/
theorem targetsAreConstantsOfTheProgram : Obligations.TargetsAreConstantsOfTheProgram := by
  intro i s t h
  rcases exec_cases i s with
    ⟨rd, v, -, -, e⟩ | e | ⟨off, ⟨o, ho, rfl⟩, e⟩ | ⟨off, rfl, e⟩ | ⟨rd, rs1, imm, -, e⟩ | ⟨rs1, rs2, imm, -, e⟩ <;> rw [e] at h
  · cases h; exact .inl (by simp [nextWord_eq])
  · cases h; exact .inl (nextWord_eq s)
  · cases h; exact .inr ⟨o, ho, s.target_ofInt o⟩
  · cases h; exact .inr ⟨off.toInt, rfl, by simp [s.target_eq]⟩
  · obtain ⟨a, -, rfl⟩ := execLw_next h; exact .inl (by simp [nextWord_eq])
  · obtain ⟨a, -, rfl⟩ := execSw_next h; exact .inl (by simp [nextWord_eq])

theorem nextWord_aligned (hpc : s.pc.toNat % 4 = 0) (hstep : s.cfg.pcStep.toNat % 4 = 0) : (nextWord s).toNat % 4 = 0 := by
  rw [nextWord, BitVec.toNat_ofNat]
  omega

theorem targetOf_aligned {off : Int} (hpc : s.pc.toNat % 4 = 0) (hbase : s.cfg.targetBaseOffset.toNat % 4 = 0) (hoff : off % 4 = 0) :
    (targetOf s off).toNat % 4 = 0 := by
  rw [targetOf, BitVec.toNat_ofInt]
  omega

/-- Settles O56: both places an instruction can go on at are sums of multiples of 4, and 2^32 is one too. -/
theorem alignedOffsetsKeepPcAligned : Obligations.AlignedOffsetsKeepPcAligned := by
  intro i s t hpc hstep hbase hoff h
  obtain hnext | ⟨off, ho, htarget⟩ := targetsAreConstantsOfTheProgram i s t h
  · rw [hnext]
    exact nextWord_aligned hpc hstep
  · rw [htarget]
    exact targetOf_aligned hpc hbase (hoff off ho)

/-- An instruction that transfers goes to the target its offset names. -/
theorem exec_transfers (ht : s.transfers i = true) (h : exec i s = .next t) : (offsetOf i).map (targetOf s) = some t.pc := by
  cases i
  case beqz rs1 off =>
    cases (exec_beqz_of_zero (of_decide_eq_true ht) off).symm.trans h
    exact congrArg some (s.target_eq off).symm
  case bnez rs1 off =>
    cases (exec_bnez_of_nonzero (of_decide_eq_true ht) off).symm.trans h
    exact congrArg some (s.target_eq off).symm
  case j off =>
    cases h
    exact congrArg some (s.target_eq off).symm
  case jal off =>
    cases h
    simp [offsetOf, s.target_eq]
  all_goals cases ht

/-! ### Runs that stay -/

theorem run_of_step_self {M : Host.Core} {s : M.State} (h : M.step s = .next s) (n : Nat) : M.run n s = .next s := by
  induction n with
  | zero => rfl
  | succ n ih => rw [run_succ_of_next h, ih]

/-- Settles O39: the step at `HALT_PC` answers the same state, so every run from there does. -/
theorem runIsOverAtHaltPc : Obligations.RunIsOverAtHaltPc := fun _ n h => run_of_step_self (M := core) (step_of_runOver h) n

/-- 70_reset_and_hazards.md section 2: the offset of the parking word is -4. -/
theorem decode_parkingWord (cfg : Config) : decode cfg 0x0BFFFFFC = .ok (.j 0x3FFFFFC) :=
  jWordsDecode_of_row (op := opJ) (mk := .j) (by decide) rfl cfg 0x0BFFFFFC (by decide)

theorem exec_j_minus_four (h4 : s.cfg.targetBaseOffset = 4) : exec (.j 0x3FFFFFC) s = .next s := by
  have hsum : (4 : Word) + sext32 (0x3FFFFFC : BitVec 26) = 0 := by decide
  have hpc : s.pc + s.cfg.targetBaseOffset + sext32 (0x3FFFFFC : BitVec 26) = s.pc := by
    rw [h4, BitVec.add_assoc, hsum, add_zero]
  show Host.Outcome.next { s with pc := _ } = _
  rw [hpc]

theorem step_parkingWord (ha : s.pc.toNat % 4 = 0) (h4 : s.cfg.targetBaseOffset = 4) (h0 : s.cfg.branchDelaySlots = 0)
    (hf : s.ifetch? s.pc.toNat = some 0x0BFFFFFC) : step s = .next s := by
  by_cases hh : s.cfg.haltPc = some s.pc
  · exact step_of_runOver ⟨ha, hh⟩
  · rw [step_of_fetchNext (fetchNext_of_ifetch ha hh hf (decode_parkingWord s.cfg)), onNext_settle_noSlots h0, exec_j_minus_four h4]

/-- Settles O57: the step answers the same state, at `HALT_PC` because the run is over there, elsewhere by the jump. -/
theorem parkingLoopChangesNothing : Obligations.ParkingLoopChangesNothing := fun _ n ha h4 h0 hf =>
  run_of_step_self (M := core) (step_parkingWord ha h4 h0 hf) n

/-! ### One delay slot -/

/-- A step that fetches an instruction and answers a next state answers what `settle` makes of its execution. -/
theorem step_next_of_fetchNext (hf : s.fetchNext = .instr i) (h : step s = .next t) : ∃ u, exec i s = .next u ∧ t = s.settle i u := by
  obtain ⟨hover, -⟩ | ⟨k, u, hf', hexec, rfl⟩ := step_next h
  · cases hover.symm.trans hf
  · cases hf'.symm.trans hf
    exact ⟨u, hexec, rfl⟩

/-- With one slot the transfer owed is taken, and the instruction's own, if it transfers, is owed in its place (log 16). -/
theorem State.settle_oneSlot {owed : Option Word} (h1 : s.cfg.branchDelaySlots = 1) (hp : s.pending = [owed]) (i : Instr) (u : State) :
    (s.settle i u).pc = owed.getD (nextWord s) ∧
      (s.settle i u).pending = [if s.transfers i = true then some u.pc else none] := by
  rw [← nextWord_eq]
  simp [State.settle, h1, hp]

/-- Settles O41: the first step leaves the target owed and goes on at the next word, the second one takes it and leaves nothing owed. -/
theorem oneDelaySlotPostponesTheTransfer : Obligations.OneDelaySlotPostponesTheTransfer := by
  intro s t u i k h1 hp hfi _ hti hst hfk htk htu
  obtain ⟨v, hexec, rfl⟩ := step_next_of_fetchNext hfi hst
  obtain ⟨w, -, rfl⟩ := step_next_of_fetchNext hfk htu
  obtain ⟨hpc, hpending⟩ := State.settle_oneSlot h1 hp i v
  rw [if_pos hti] at hpending
  obtain ⟨-, hcfg, -⟩ := exec_sameLaunch hexec
  have h1' : (s.settle i v).cfg.branchDelaySlots = 1 := by rw [State.settle_cfg, hcfg, h1]
  obtain ⟨hpc', hpending'⟩ := State.settle_oneSlot h1' hpending k w
  rw [if_neg (by simp [htk])] at hpending'
  refine ⟨hpc, ?_, hpending'⟩
  rw [hpc']
  exact exec_transfers hti hexec

end Sys2Proof.Machine
end

section
/-! The registers an instruction writes and depends on (10_state.md R24). -/

namespace Sys2Proof.Machine

variable {s s' t : State} {i : Instr} {r : Reg}

/-- The first clause of R24. -/
theorem exec_reg_other (h : exec i s = .next t) (hr : destReg i ≠ some r) : t.reg r = s.reg r := by
  rcases exec_cases i s with
    ⟨rd, v, hd, -, e⟩ | e | ⟨off, -, e⟩ | ⟨off, rfl, e⟩ | ⟨rd, rs1, imm, rfl, e⟩ | ⟨rs1, rs2, imm, -, e⟩ <;> rw [e] at h
  · cases h; exact State.setReg_reg_other s rd r v fun e => hr (e ▸ hd)
  · cases h; rfl
  · cases h; rfl
  · cases h; exact State.setReg_reg_other s 31 r _ fun e => hr (e ▸ rfl)
  · obtain ⟨a, -, rfl⟩ := execLw_next h; exact State.setReg_reg_other s rd r _ fun e => hr (e ▸ rfl)
  · obtain ⟨a, -, rfl⟩ := execSw_next h; rfl

/-- Two states that agree on all that an instruction can depend on, the registers in `reads` among it. -/
structure AgreeOn (reads : List Reg) (s s' : State) : Prop where
  pc : s'.pc = s.pc
  dmem : s'.dmem = s.dmem
  cfg : s'.cfg = s.cfg
  regs : ∀ r ∈ reads, s'.reg r = s.reg r

/-- Two outcomes of one instruction are the same as far as it determines them: `pc`, the data memory and the destination, or the
refusal. -/
def SameOutcome (d : Option Reg) (o o' : Host.Outcome State Fault Refusal) : Prop :=
  (∃ t t', o = .next t ∧ o' = .next t' ∧ t'.pc = t.pc ∧ t'.dmem = t.dmem ∧ ∀ r, d = some r → t'.reg r = t.reg r) ∨
    ∃ q, o = .refused q ∧ o' = .refused q

/-! ### The endings, in states that agree -/

section
variable {reads : List Reg} (h : AgreeOn reads s s')
include h

theorem AgreeOn.shiftCount (operand : Word) : s'.shiftCount operand = s.shiftCount operand := by
  rw [State.shiftCount, State.shiftCount, h.cfg]

/-- Instructions that write back: it remains to see that both write the same value. -/
theorem AgreeOn.writeBack {rd : Reg} {v v' : Word} (hv : v' = v) : SameOutcome (some rd) (writeBack rd v s) (writeBack rd v' s') := by
  refine .inl ⟨_, _, rfl, rfl, by simp [h.pc, h.cfg], by simp [h.dmem], fun r hr => ?_⟩
  obtain rfl : rd = r := Option.some.inj hr
  rw [State.advance_reg, State.advance_reg, State.setReg_reg_same, State.setReg_reg_same, h.cfg, hv]

theorem AgreeOn.advance : SameOutcome none (.next s.advance) (.next s'.advance) :=
  .inl ⟨_, _, rfl, rfl, by simp [h.pc, h.cfg], h.dmem, nofun⟩

theorem AgreeOn.transfer (off : Word) : SameOutcome none (.next (s.transfer off)) (.next (s'.transfer off)) :=
  .inl ⟨_, _, rfl, rfl, by simp [h.pc, h.cfg], h.dmem, nofun⟩

theorem AgreeOn.link (off : Word) :
    SameOutcome (some 31) (.next ((s.setReg 31 (s.pc + s.cfg.linkOffset)).transfer off))
      (.next ((s'.setReg 31 (s'.pc + s'.cfg.linkOffset)).transfer off)) := by
  refine .inl ⟨_, _, rfl, rfl, by simp [h.pc, h.cfg], by simp [h.dmem], fun r hr => ?_⟩
  obtain rfl : 31 = r := Option.some.inj hr
  rw [State.transfer_reg, State.transfer_reg, State.setReg_reg_same, State.setReg_reg_same, h.cfg, h.pc]

theorem AgreeOn.dataCell {rs1 : Reg} (h1 : s'.reg rs1 = s.reg rs1) (imm : BitVec 16) :
    s'.dataCell (s'.effectiveAddress rs1 imm) = s.dataCell (s.effectiveAddress rs1 imm) := by
  rw [State.dataCell_congr h.cfg, State.effectiveAddress, State.effectiveAddress, h1]

theorem AgreeOn.execLw {rd rs1 : Reg} {imm : BitVec 16} (h1 : s'.reg rs1 = s.reg rs1) :
    SameOutcome (some rd) (execLw rd rs1 imm s) (execLw rd rs1 imm s') := by
  unfold Machine.execLw
  rw [h.dataCell h1 imm]
  cases s.dataCell (s.effectiveAddress rs1 imm) with
  | error q => exact .inr ⟨q, rfl, rfl⟩
  | ok a => exact h.writeBack (State.memRead_congr h.cfg h.dmem a)

theorem AgreeOn.execSw {rs1 rs2 : Reg} {imm : BitVec 16} (h1 : s'.reg rs1 = s.reg rs1) (h2 : s'.reg rs2 = s.reg rs2) :
    SameOutcome none (execSw rs1 rs2 imm s) (execSw rs1 rs2 imm s') := by
  unfold Machine.execSw
  rw [h.dataCell h1 imm]
  cases s.dataCell (s.effectiveAddress rs1 imm) with
  | error q => exact .inr ⟨q, rfl, rfl⟩
  | ok a =>
    exact .inl ⟨_, _, rfl, rfl, by simp [h.pc, h.cfg], by simp [h.dmem, h2, State.dataOrder_congr h.cfg], nofun⟩

theorem AgreeOn.execBeqz {rs1 : Reg} (h1 : s'.reg rs1 = s.reg rs1) (off : BitVec 16) :
    SameOutcome none (exec (.beqz rs1 off) s) (exec (.beqz rs1 off) s') := by
  by_cases hz : s.reg rs1 = 0
  · rw [exec_beqz_of_zero hz, exec_beqz_of_zero (h1.trans hz)]
    exact h.transfer _
  · rw [exec_beqz_of_nonzero hz, exec_beqz_of_nonzero (h1 ▸ hz)]
    exact h.advance

theorem AgreeOn.execBnez {rs1 : Reg} (h1 : s'.reg rs1 = s.reg rs1) (off : BitVec 16) :
    SameOutcome none (exec (.bnez rs1 off) s) (exec (.bnez rs1 off) s') := by
  by_cases hz : s.reg rs1 = 0
  · rw [exec_bnez_of_zero hz, exec_bnez_of_zero (h1.trans hz)]
    exact h.advance
  · rw [exec_bnez_of_nonzero hz, exec_bnez_of_nonzero (h1 ▸ hz)]
    exact h.transfer _

end

/-- The second clause of R24: an ALU instruction writes back a value made of its operands and, for a shift, the parameters. -/
theorem exec_sameOutcome (h : AgreeOn (readSet i) s s') : SameOutcome (destReg i) (exec i s) (exec i s') := by
  cases i
  case lw rd rs1 imm => exact h.execLw (h.regs rs1 (by simp [readSet]))
  case sw rs1 rs2 imm => exact h.execSw (h.regs rs1 (by simp [readSet])) (h.regs rs2 (by simp [readSet]))
  case beqz rs1 off => exact h.execBeqz (h.regs rs1 (by simp [readSet])) off
  case bnez rs1 off => exact h.execBnez (h.regs rs1 (by simp [readSet])) off
  case j off => exact h.transfer _
  case jal off => exact h.link _
  case nop => exact h.advance
  case add rd rs1 rs2 | sub rd rs1 rs2 | and rd rs1 rs2 | or rd rs1 rs2 | xor rd rs1 rs2 | sll rd rs1 rs2 | srl rd rs1 rs2 |
      sra rd rs1 rs2 | sne rd rs1 rs2 | sle rd rs1 rs2 | sge rd rs1 rs2 =>
    have h1 := h.regs rs1 (by simp [readSet])
    have h2 := h.regs rs2 (by simp [readSet])
    exact h.writeBack (by simp only [h1, h2, h.shiftCount])
  case addi rd rs1 imm | subi rd rs1 imm | andi rd rs1 imm | ori rd rs1 imm | xori rd rs1 imm | slli rd rs1 imm | srli rd rs1 imm |
      srai rd rs1 imm | snei rd rs1 imm | slei rd rs1 imm | sgei rd rs1 imm =>
    have h1 := h.regs rs1 (by simp [readSet])
    exact h.writeBack (by simp only [h1, h.shiftCount])

/-- Settles O51: the clauses are what an instruction leaves alone and what states that agree on its registers make of it. -/
theorem registersReadAndWritten : Obligations.RegistersReadAndWritten := by
  refine ⟨fun i s t h r hr => exec_reg_other h hr, fun i s s' hpc hdmem _ _ hcfg hregs => ?_⟩
  obtain ⟨t, t', e, e', hsame⟩ | ⟨q, e, e'⟩ := exec_sameOutcome ⟨hpc, hdmem, hcfg, hregs⟩
  · rw [e, e']
    exact hsame
  · rw [e, e']

end Sys2Proof.Machine
end

section
/-! Assembled transfers (30_encoding.md section 5): the last operand of a branch or jump names its target, and the offset the assembler
computes leads there. -/

namespace Sys2Proof.Machine

variable {symbols : List (String × Int)} {A : Nat} {operands : List (List Char)} {i : Instr} {s t : State}

/-- What the assembler is to keep of a transfer: the offset in the instruction is that of the target its last operand names (R88). -/
def NamesItsTarget (symbols : List (String × Int)) (A : Nat) (operands : List (List Char)) (i : Instr) : Prop :=
  ∃ operand target, operands.getLast? = some operand ∧ targetOf? symbols operand = some target ∧
    offsetOf i = some (targetOffset A target)

/-- Every instruction of this form that has an offset names its target. -/
def FormNamesTarget (f : AsmForm) : Prop :=
  ∀ (symbols : List (String × Int)) (A : Nat) (operands : List (List Char)) (i : Instr),
    f.build symbols A operands = some i → offsetOf i ≠ none → NamesItsTarget symbols A operands i

theorem formNamesTarget_branch {mk : Reg → BitVec 16 → Instr} (hmk : ∀ rs1 off, offsetOf (mk rs1 off) = some off.toInt) :
    FormNamesTarget (.branch mk) := by
  intro symbols A operands i h _
  obtain ⟨register, target, rs1, n, off, rfl, -, hn, hoff, rfl⟩ := AsmForm.build_branch h
  exact ⟨target, n, rfl, hn, by rw [hmk, toInt_of_signed16? hoff]⟩

theorem formNamesTarget_jump {mk : BitVec 26 → Instr} (hmk : ∀ off, offsetOf (mk off) = some off.toInt) :
    FormNamesTarget (.jump mk) := by
  intro symbols A operands i h _
  obtain ⟨target, n, off, rfl, hn, hoff, rfl⟩ := AsmForm.build_jump h
  exact ⟨target, n, rfl, hn, by rw [hmk, toInt_of_signed26? hoff]⟩

theorem formNamesTarget_immediate {f : AsmForm} {mk : Reg → Reg → BitVec 16 → Instr}
    (hf : f = .aluSigned mk ∨ f = .aluUnsigned mk ∨ f = .load mk ∨ f = .store mk) (hmk : ∀ a b imm, offsetOf (mk a b imm) = none) :
    FormNamesTarget f := by
  intro symbols A operands i h hoff
  obtain ⟨a, b, imm, rfl⟩ := AsmForm.build_immediate hf h
  exact absurd (hmk a b imm) hoff

theorem formNamesTarget_register {mk : Reg → Reg → Reg → Instr} (hmk : ∀ rd rs1 rs2, offsetOf (mk rd rs1 rs2) = none) :
    FormNamesTarget (.register mk) := by
  intro symbols A operands i h hoff
  obtain ⟨rd, rs1, rs2, rfl⟩ := AsmForm.build_register h
  exact absurd (hmk rd rs1 rs2) hoff

theorem formNamesTarget_plain {k : Instr} (hk : offsetOf k = none) : FormNamesTarget (.plain k) := by
  intro symbols A operands i h hoff
  obtain rfl := AsmForm.build_plain h
  exact absurd hk hoff

/-- The table in its order: five signed, six unsigned, the load and the store, eleven register forms, two branches, two jumps, `nop`. -/
theorem asmForms_nameTargets : ∀ p ∈ asmForms, FormNamesTarget p.2 := by
  have signed {mk} := @formNamesTarget_immediate (.aluSigned mk) mk (.inl rfl)
  have unsigned {mk} := @formNamesTarget_immediate (.aluUnsigned mk) mk (.inr (.inl rfl))
  have load {mk} := @formNamesTarget_immediate (.load mk) mk (.inr (.inr (.inl rfl)))
  have store {mk} := @formNamesTarget_immediate (.store mk) mk (.inr (.inr (.inr rfl)))
  have register {mk} := @formNamesTarget_register mk
  have by_rfl {α β γ δ : Type} {d : δ} : α → β → γ → d = d := fun _ _ _ => rfl
  simp only [asmForms, List.cons_append, List.nil_append, List.forall_mem_cons]
  exact ⟨signed by_rfl, signed by_rfl, signed by_rfl, signed by_rfl, signed by_rfl,
    unsigned by_rfl, unsigned by_rfl, unsigned by_rfl, unsigned by_rfl, unsigned by_rfl, unsigned by_rfl,
    load by_rfl, store by_rfl,
    register by_rfl, register by_rfl, register by_rfl, register by_rfl, register by_rfl, register by_rfl, register by_rfl,
    register by_rfl, register by_rfl, register by_rfl, register by_rfl,
    formNamesTarget_branch fun _ _ => rfl, formNamesTarget_branch fun _ _ => rfl,
    formNamesTarget_jump fun _ => rfl, formNamesTarget_jump fun _ => rfl, formNamesTarget_plain rfl, List.forall_mem_nil _⟩

theorem assembleLine_namesItsTarget {line : String} (h : assembleLine symbols A line = some i) (hoff : offsetOf i ≠ none) :
    NamesItsTarget symbols A (lineOperands line) i := by
  obtain ⟨p, hp, -, hbuild⟩ := assembleLine_some h
  exact asmForms_nameTargets p hp symbols A (lineOperands line) i hbuild hoff

/-- Only instructions with an offset transfer. -/
theorem offsetOf_of_transfers (h : s.transfers i = true) : offsetOf i ≠ none := by
  cases i
  case beqz | bnez | j | jal => nofun
  all_goals cases h

/-- With the default `TARGET_BASE_OFFSET` the offset the assembler computes (R88) leads to the target. -/
theorem targetOf_targetOffset (h4 : s.cfg.targetBaseOffset = 4) (target : Int) :
    targetOf s (targetOffset s.pc.toNat target) = BitVec.ofInt 32 target := by
  have h4' : s.cfg.targetBaseOffset.toNat = 4 := by rw [h4]; rfl
  rw [targetOf, targetOffset, h4']
  congr 1
  omega

theorem exec_reaches_target (h4 : s.cfg.targetBaseOffset = 4) (ht : s.transfers i = true) {target : Int}
    (hoff : offsetOf i = some (targetOffset s.pc.toNat target)) (h : exec i s = .next t) : t.pc = BitVec.ofInt 32 target := by
  have htarget := exec_transfers ht h
  rw [hoff, Option.map_some, targetOf_targetOffset h4] at htarget
  exact (Option.some.inj htarget).symm

/-- Settles O59: a line that assembles to a transfer names its target, and each of the four transfers reaches the target whose offset
its field holds. -/
theorem assembledTransfersReachTheirTarget : Obligations.AssembledTransfersReachTheirTarget := by
  refine ⟨?lines, fun s target h4 => ⟨?beqz, ?bnez, ?jumps⟩⟩
  case lines =>
    intro s symbols line i h4 h ht
    obtain ⟨operand, target, hlast, htarget, hoff⟩ := assembleLine_namesItsTarget h (offsetOf_of_transfers ht)
    obtain ⟨t, hexec⟩ := exec_completes_of_offsetOf (i := i) (by rw [hoff]; rfl) s
    exact ⟨operand, target, t, hlast, htarget, hexec, exec_reaches_target h4 ht hoff hexec⟩
  case beqz =>
    intro rs1 off t hoff hz h
    exact exec_reaches_target (i := .beqz rs1 off) h4 (decide_eq_true hz) (congrArg some (toInt_of_signed16? hoff)) h
  case bnez =>
    intro rs1 off t hoff hz h
    exact exec_reaches_target (i := .bnez rs1 off) h4 (decide_eq_true hz) (congrArg some (toInt_of_signed16? hoff)) h
  case jumps =>
    rintro off t hoff (h | h)
    · exact exec_reaches_target (i := .j off) h4 rfl (congrArg some (toInt_of_signed26? hoff)) h
    · exact exec_reaches_target (i := .jal off) h4 rfl (congrArg some (toInt_of_signed26? hoff)) h

end Sys2Proof.Machine
end

section
/-! Words of the source's instruction table (95_test_vectors.md section 1.1). -/

namespace Sys2Proof.Machine

/-- Settles O1: each word by evaluation of the decoder. -/
theorem sourceTableWordsDecode : Obligations.SourceTableWordsDecode := by
  unfold Obligations.SourceTableWordsDecode
  decide

end Sys2Proof.Machine
end
